-- ==== Sys2Proof/Word.lean ====
section
/-! DEFINITION. The 128-bit value of the block as a pair of 64-bit limbs, and the numbers it stands for
(00_scope.md R6, R8). -/

namespace Sys2Proof

/-- One of the two 64-bit words of a value (00_scope.md, glossary). -/
abbrev Limb := BitVec 64

/-- One text byte. -/
abbrev Byte := BitVec 8

/-- A 32-bit command word; bit 31 is the most significant (R8, R100). -/
abbrev CmdWord := BitVec 32

/-- A value: the pair `(high, low)` of two unsigned 64-bit limbs (R6). -/
structure Value where
  high : Limb
  low  : Limb
  deriving DecidableEq, Repr

namespace Value

/-- `val(v) = v.high · 2^64 + v.low` (R6). -/
def val (v : Value) : Nat := v.high.toNat * 2 ^ 64 + v.low.toNat

/-- `V(n)`: the pair for a number, reduced modulo 2^128 (R6). -/
def ofNat (n : Nat) : Value := ⟨BitVec.ofNat 64 (n / 2 ^ 64), BitVec.ofNat 64 n⟩

/-- The value as one row of 128 bits, `high` in the more significant half (R8). -/
def bits (v : Value) : BitVec 128 := v.high ++ v.low

/-- The value whose 128 bits are given: `high = b[127:64]`, `low = b[63:0]` (R8). -/
def ofBits (b : BitVec 128) : Value := ⟨b.extractLsb' 64 64, b.extractLsb' 0 64⟩

/-- The default value 0 (R43). -/
def zero : Value := ⟨0, 0⟩

/-- The value 1. -/
def one : Value := ⟨0, 1⟩

/-- A value whose `high` limb is 0 and whose `low` limb is the given one. -/
def ofLow (l : Limb) : Value := ⟨0, l⟩

end Value

end Sys2Proof
end

