-- ==== Sys2Proof/Config.lean ====
section
/-! DEFINITION. The parameters of the block (00_scope.md R5), and the two things the spec leaves open. -/

namespace Sys2Proof.Config

/-- `LIMB_W` (R5). -/
def limbW : Nat := 64
/-- `VAL_W` (R5). -/
def valW : Nat := 128
/-- `NREG`: the number of value registers (R5, R30). -/
abbrev nreg : Nat := 16
/-- `CMD_W` (R5). -/
def cmdW : Nat := 32
/-- `RADIX_MIN` (R5). -/
def radixMin : Nat := 2
/-- `RADIX_MAX` (R5). -/
def radixMax : Nat := 36
/-- `TEXT_MAX`: bytes of text buffer (R5, R40). -/
abbrev textMax : Nat := 256
/-- `MIND_MAX`: the largest minimum-digits field (R5). -/
def mindMax : Nat := 255
/-- `ROTATE`: the rotation commands exist. DESIGN CHOICE of the spec, kept here: log entry 8 (R5, U8). -/
def rotate : Bool := true
/-- `FORMAT_ZERO_EMPTY`: value 0 with `mind = 0` formats as empty text. DESIGN CHOICE of the spec, kept here:
log entry 8 (R5, U10). -/
def formatZeroEmpty : Bool := true

/-- Metadata `min` (R5). -/
def metaMin : Nat := 0
/-- Metadata `max` (R5). -/
def metaMax : Nat := 2 ^ 128 - 1
/-- Metadata bit count (R5). -/
def metaBits : Nat := 128
/-- Metadata decimal-digit capacity (R5). -/
def metaDecimalDigits : Nat := 38
/-- Metadata signed (R5). -/
def metaSigned : Bool := false
/-- Metadata modulo: wraps rather than traps (R5). -/
def metaModulo : Bool := true

/-- FREE VALUE: what text-buffer byte `k` holds after the reset number `epoch`, until it is written (R43, R340,
U1). DESIGN CHOICE: log entry 2. Nothing constrains it. -/
opaque tbReset (epoch k : Nat) : Byte

/-- FREE VALUE: `LATENCY(cmd)`, at least 1 (R5, R349, U4). Nothing reads it: log entry 12. -/
opaque latency : CmdWord → ℕ+

end Sys2Proof.Config
end

