-- ==== Sys2Proof/Syntax.lean ====
section
/-! DEFINITION. The commands of CORE-128, one constructor per row of the opcode map (30_encoding.md R105), with the
operand fields of its format (R101, R102), and the nine formats. -/

namespace Sys2Proof

/-- A register field: a 4-bit unsigned index `n` naming `Vn` (R103). Every value is valid. -/
abbrev Reg := BitVec 4

/-- The nine formats of a command word (R102). -/
inductive Format where
  | R | R2 | R4 | I | U | XA | XD | XP | XF
  deriving DecidableEq, Repr

/-- One command with its operands. `rd` is the destination, `rd2` the second destination, `rs1` and `rs2` the
sources, `base` the radix, `aux` a character and `mind` the minimum number of digits. -/
inductive Instr where
  -- Representation and conversion (41_representation.md)
  /-- MOV, format R2, op 0x01 (R141). -/
  | mov (rd rs1 : Reg)
  /-- LI, format U, op 0x02 (R142). -/
  | li (rd : Reg) (imm16 : BitVec 16)
  /-- PAIR, format R, op 0x03 (R143). -/
  | pair (rd rs1 rs2 : Reg)
  /-- GETHI, format R2, op 0x04 (R144). -/
  | gethi (rd rs1 : Reg)
  /-- CNZ, format R2, op 0x05 (R153). -/
  | cnz (rd rs1 : Reg)
  /-- ZEXT8, format R2, op 0x08 (R145). -/
  | zext8 (rd rs1 : Reg)
  /-- ZEXT16, format R2, op 0x09 (R146). -/
  | zext16 (rd rs1 : Reg)
  /-- ZEXT32, format R2, op 0x0A (R147). -/
  | zext32 (rd rs1 : Reg)
  /-- ZEXT64, format R2, op 0x0B (R148). -/
  | zext64 (rd rs1 : Reg)
  /-- SEXT8, format R2, op 0x0C (R149). -/
  | sext8 (rd rs1 : Reg)
  /-- SEXT16, format R2, op 0x0D (R150). -/
  | sext16 (rd rs1 : Reg)
  /-- SEXT32, format R2, op 0x0E (R151). -/
  | sext32 (rd rs1 : Reg)
  /-- SEXT64, format R2, op 0x0F (R152). -/
  | sext64 (rd rs1 : Reg)
  -- Bitwise, shift and rotation (42_bitwise_shift.md)
  /-- NOT, format R2, op 0x10 (R170). -/
  | not (rd rs1 : Reg)
  /-- AND, format R, op 0x11 (R171). -/
  | and (rd rs1 rs2 : Reg)
  /-- OR, format R, op 0x12 (R172). -/
  | or (rd rs1 rs2 : Reg)
  /-- XOR, format R, op 0x13 (R173). -/
  | xor (rd rs1 rs2 : Reg)
  /-- SHLI, format I, op 0x14 (R178). -/
  | shli (rd rs1 : Reg) (imm8 : BitVec 8)
  /-- SHRI, format I, op 0x15 (R179). -/
  | shri (rd rs1 : Reg) (imm8 : BitVec 8)
  /-- SHL, format R, op 0x16 (R180). -/
  | shl (rd rs1 rs2 : Reg)
  /-- SHR, format R, op 0x17 (R181). -/
  | shr (rd rs1 rs2 : Reg)
  /-- ROLI, format I, op 0x18 (R183). -/
  | roli (rd rs1 : Reg) (imm8 : BitVec 8)
  /-- RORI, format I, op 0x19 (R184). -/
  | rori (rd rs1 : Reg) (imm8 : BitVec 8)
  /-- ROL, format R, op 0x1A (R185). -/
  | rol (rd rs1 rs2 : Reg)
  /-- ROR, format R, op 0x1B (R186). -/
  | ror (rd rs1 rs2 : Reg)
  -- Additive arithmetic and ordering (43_additive_order.md)
  /-- ADD, format R, op 0x20 (R202). -/
  | add (rd rs1 rs2 : Reg)
  /-- SUB, format R, op 0x21 (R203). -/
  | sub (rd rs1 rs2 : Reg)
  /-- INC, format R2, op 0x22 (R204). -/
  | inc (rd rs1 : Reg)
  /-- DEC, format R2, op 0x23 (R205). -/
  | dec (rd rs1 : Reg)
  /-- CEQ, format R, op 0x28 (R207). -/
  | ceq (rd rs1 rs2 : Reg)
  /-- CNE, format R, op 0x29 (R208). -/
  | cne (rd rs1 rs2 : Reg)
  /-- CLT, format R, op 0x2A (R209). -/
  | clt (rd rs1 rs2 : Reg)
  /-- CLE, format R, op 0x2B (R210). -/
  | cle (rd rs1 rs2 : Reg)
  /-- CGT, format R, op 0x2C (R211). -/
  | cgt (rd rs1 rs2 : Reg)
  /-- CGE, format R, op 0x2D (R212). -/
  | cge (rd rs1 rs2 : Reg)
  -- Multiplication (44_multiply.md)
  /-- MUL, format R, op 0x30 (R233). -/
  | mul (rd rs1 rs2 : Reg)
  -- Division (45_divide.md)
  /-- DIVMOD, format R4, op 0x38 (R253). -/
  | divmod (rd rd2 rs1 rs2 : Reg)
  /-- DIV, format R, op 0x39 (R254). -/
  | div (rd rs1 rs2 : Reg)
  /-- REM, format R, op 0x3A (R255). -/
  | rem (rd rs1 rs2 : Reg)
  -- Radix conversion (46_text_codec.md)
  /-- DACC, format XA, op 0x40 (R273). -/
  | dacc (rd rs1 : Reg) (base aux : BitVec 8)
  /-- DDIV, format XD, op 0x41 (R274). -/
  | ddiv (rd rd2 rs1 : Reg) (base : BitVec 8)
  /-- PARSE, format XP, op 0x42 (R275). -/
  | parse (rd : Reg) (base : BitVec 8)
  /-- FORMAT, format XF, op 0x43 (R276). -/
  | format (rs1 : Reg) (base mind : BitVec 8)
  deriving DecidableEq, Repr

end Sys2Proof
end

