-- ==== Sys2Proof/Machine/State.lean ====
section
/-! DEFINITION. The state of the block (10_state.md R44), the host operations that drive it (20_memory.md R84), and the
state after reset (R43). All of it is plain data. -/

namespace Sys2Proof.Machine

/-- One operation of the host (R84). Index arguments outside their ranges cannot be expressed. -/
inductive HostOp where
  /-- `H_RESET` (R340). -/
  | reset
  /-- `H_WRITE_REG(i, hi, lo)`. -/
  | writeReg (i : Reg) (hi lo : Limb)
  /-- `H_READ_REG(i)`. -/
  | readReg (i : Reg)
  /-- `H_WRITE_TB(k, b)`. -/
  | writeTb (k : BitVec 8) (b : Byte)
  /-- `H_READ_TB(k)`. -/
  | readTb (k : BitVec 8)
  /-- `H_WRITE_TLEN(n)`. -/
  | writeTlen (n : BitVec 16)
  /-- `H_READ_TLEN`. -/
  | readTlen
  /-- `H_READ_STATUS`. -/
  | readStatus
  /-- `H_WRITE_STATUS(w)`. -/
  | writeStatus (w : BitVec 32)
  /-- `H_READ_FAULTCMD`. -/
  | readFaultcmd
  /-- `H_READ_ERRIDX`. -/
  | readErridx
  /-- `H_ISSUE(c)`. -/
  | issue (c : CmdWord)
  deriving DecidableEq, Repr

/-- The result column of R84: what a host read answers. -/
inductive Reply where
  /-- `(x[i].high, x[i].low)` of `H_READ_REG`. -/
  | reg (high low : Limb)
  /-- `TB[k]` of `H_READ_TB`. -/
  | tb (b : Byte)
  /-- `TLEN` of `H_READ_TLEN`. -/
  | tlen (n : Fin 257)
  /-- `STATUS` of `H_READ_STATUS`. -/
  | status (w : BitVec 32)
  /-- `FAULTCMD` of `H_READ_FAULTCMD`. -/
  | faultcmd (w : BitVec 32)
  /-- `ERRIDX` of `H_READ_ERRIDX`. -/
  | erridx (b : BitVec 8)
  deriving DecidableEq, Repr

/-- The written bytes of the text buffer, `(index, byte)`, indexes strictly rising and below 256. DESIGN CHOICE:
log entry 3. -/
abbrev Memory := List Host.Cell

/-- The canonical form of the text buffer's list. No entry has to be dropped for what an unlisted index reads as: that
is a free value, which no byte can be compared with (log entries 2 and 3). -/
abbrev Memory.wf (m : Memory) : Prop :=
  (m.map Prod.fst).Pairwise (· < ·) ∧ ∀ k ∈ m.map Prod.fst, k < Config.textMax

/-- The complete state (R44), then three fields of the model's own: the draw number of the text buffer, the host's
waiting operations, and the result of the operation just performed. -/
structure State where
  /-- `V0`..`V15` (R30). -/
  v : Vector Value Config.nreg
  /-- `STATUS` (R34). -/
  status : BitVec 32
  /-- `FAULTCMD` (R37). -/
  faultcmd : BitVec 32
  /-- `ERRIDX` (R38). -/
  erridx : BitVec 8
  /-- `TLEN`, in 0..256 (R39, R44). DESIGN CHOICE: log entry 7. -/
  tlen : Fin 257
  /-- `TB` (R40): the bytes written since the last reset. -/
  tb : Memory
  /-- How many resets have drawn the text buffer afresh. DESIGN CHOICE: log entry 2. -/
  tbEpoch : Nat
  /-- What the host does next, oldest first (R78). DESIGN CHOICE: log entry 1. -/
  pending : List HostOp
  /-- The result of the host operation just performed (R84). DESIGN CHOICE: log entry 4. -/
  reply : Option Reply
  deriving DecidableEq, Repr

/-- Nothing makes the machine stop: an error is recorded and the block stays ready (60_exceptions.md R310, R348).
DEDUCED: log entry 13. No definition raises a fault. -/
inductive Fault where
  deriving DecidableEq, Repr

/-- Why a step has no meaning. -/
inductive Refusal where
  /-- Raised by an arm of `exec` whose instruction has no meaning yet; no arm does. Safe: the machine stops. -/
  | notModelled (mnemonic : String)
  deriving DecidableEq, Repr

/-- What a meaning answers. -/
abbrev Result := Host.Outcome State Fault Refusal

/-- The state at power-on (R43, R340): registers and status registers 0, nothing of the text buffer written. The last
three fields are the model's own (DESIGN CHOICE: log entries 1, 2 and 4). -/
def State.reset : State where
  v := Vector.replicate Config.nreg Value.zero
  status := 0
  faultcmd := 0
  erridx := 0
  tlen := 0
  tb := []
  tbEpoch := 0
  pending := []
  reply := none

end Sys2Proof.Machine
end

