-- ==== Sys2Proof/Machine/Arith.lean ====
section
/-! DEFINITION. The datapath over pairs of limbs: shifts and rotations (42_bitwise_shift.md R176, R177, R182), adder,
subtractor and order (43_additive_order.md R200, R201, R206), multiplier (44_multiply.md R231) and restoring divider
(45_divide.md R251). -/

namespace Sys2Proof.Machine

/-! ## Bitwise, limb by limb (R170 to R173) -/

/-- R170. -/
def not128 (a : Value) : Value := ⟨~~~a.high, ~~~a.low⟩
/-- R171. -/
def and128 (a b : Value) : Value := ⟨a.high &&& b.high, a.low &&& b.low⟩
/-- R172. -/
def or128 (a b : Value) : Value := ⟨a.high ||| b.high, a.low ||| b.low⟩
/-- R173. -/
def xor128 (a b : Value) : Value := ⟨a.high ^^^ b.high, a.low ^^^ b.low⟩

/-! ## Shifts and rotations -/

/-- `SHL128`, in the four bands of the amount (R175, R176). -/
def shl128 (v : Value) (n : Nat) : Value :=
  if 128 ≤ n then Value.zero
  else if 64 ≤ n then ⟨v.low <<< (n - 64), 0⟩
  else if 1 ≤ n then ⟨(v.high <<< n) ||| (v.low >>> (64 - n)), v.low <<< n⟩
  else v

/-- `SHR128`, in the four bands of the amount (R175, R177). -/
def shr128 (v : Value) (n : Nat) : Value :=
  if 128 ≤ n then Value.zero
  else if 64 ≤ n then ⟨0, v.high >>> (n - 64)⟩
  else if 1 ≤ n then ⟨v.high >>> n, (v.low >>> n) ||| (v.high <<< (64 - n))⟩
  else v

/-- `ROL128`: the amount reduced modulo 128 (R182). -/
def rol128 (v : Value) (n : Nat) : Value :=
  if n % 128 = 0 then v else or128 (shl128 v (n % 128)) (shr128 v (128 - n % 128))

/-- `ROR128`: the amount reduced modulo 128 (R182). -/
def ror128 (v : Value) (n : Nat) : Value :=
  if n % 128 = 0 then v else or128 (shr128 v (n % 128)) (shl128 v (128 - n % 128))

/-! ## Adder, subtractor, order -/

/-- `ADD128`: the carry out of the low limb goes into the high limb, the carry out of that is discarded (R200). -/
def add128 (a b : Value) : Value :=
  let lo := a.low + b.low
  let c : Limb := if lo < a.low then 1 else 0
  ⟨a.high + b.high + c, lo⟩

/-- `SUB128`: the borrow out of the low limb comes from the high limb, the borrow out of that is discarded (R201). -/
def sub128 (a b : Value) : Value :=
  let w : Limb := if a.low < b.low then 1 else 0
  ⟨a.high - b.high - w, a.low - b.low⟩

/-- INC: the carry logic for a step of 1 (R204). -/
def inc128 (a : Value) : Value :=
  let lo := a.low + 1
  let c : Limb := if lo = 0 then 1 else 0
  ⟨a.high + c, lo⟩

/-- DEC: the borrow logic for a step of 1 (R205). -/
def dec128 (a : Value) : Value :=
  let w : Limb := if a.low = 0 then 1 else 0
  ⟨a.high - w, a.low - 1⟩

/-- `EQ128` (R206). -/
def eq128 (a b : Value) : Bool := a.high == b.high && a.low == b.low

/-- `LT128`: the high word first (R206). -/
def lt128 (a b : Value) : Bool := decide (a.high < b.high) || (a.high == b.high && decide (a.low < b.low))

/-! ## Multiplier -/

/-- The sub-limb `a_k = a[32k+31 : 32k]` (R230). -/
def subLimb (a : Value) (k : Nat) : BitVec 32 := a.bits.extractLsb' (32 * k) 32

/-- `a *64 b`: the exact product of two 32-bit numbers, which fits in 64 bits (R10). -/
def mul64 (a b : BitVec 32) : Limb := a.setWidth 64 * b.setWidth 64

/-- One partial product of the multiplier, shifted to its place (R231). -/
def partialProduct (a b : Value) (i j : Nat) : Value :=
  shl128 (Value.ofLow (mul64 (subLimb a i) (subLimb b j))) (32 * (i + j))

/-- `MUL128`: sixteen partial products accumulated with the adder (R231). -/
def mul128 (a b : Value) : Value :=
  (List.range 4).foldl
    (fun acc i => (List.range 4).foldl (fun acc j => add128 acc (partialProduct a b i j)) acc) Value.zero

/-! ## Restoring divider -/

/-- `bitwidth(v)`: the position of the highest set bit plus 1, and 0 for 0 (00_scope.md R11). -/
def bitwidth (v : Value) : Nat := if v.val = 0 then 0 else Nat.log2 v.val + 1

/-- Step 4 of the divider, for the rounds that are left: while the remainder `r` is nonzero, subtract the shifted
divisor `a` where it fits and add the quotient bit `b`, then shift both right (R251). DEDUCED: log entry 10. -/
def divLoop : Nat → (a b q r : Value) → Value × Value
  | 0, _, _, q, r => (q, r)
  | k + 1, a, b, q, r =>
    if r = Value.zero then (q, r)
    else if lt128 r a then divLoop k (shr128 a 1) (shr128 b 1) q r
    else divLoop k (shr128 a 1) (shr128 b 1) (add128 q b) (sub128 r a)

/-- `DIVMOD128(n, d)`: quotient and remainder by restoring long division, for `val(d) ≠ 0` (R250, R251). -/
def divmod128 (n d : Value) : Value × Value :=
  if lt128 n d then (Value.zero, n)
  else
    let s := bitwidth n - bitwidth d
    divLoop (s + 1) (shl128 d s) (shl128 Value.one s) Value.zero n

end Sys2Proof.Machine
end

