-- ==== Sys2Proof/WellFormed.lean ====
section
/-! DEFINITION. Which terms of `Instr` are commands (30_encoding.md R117). The field widths of `Syntax.lean` already
bound every operand (R103, R104), so the one check left is that a command with two destinations names two registers. -/

namespace Sys2Proof

/-- A DIVMOD or DDIV names two different destination registers (R117); every other command is well formed. -/
def Instr.wf : Instr → Bool
  | .divmod rd rd2 _ _ => rd != rd2
  | .ddiv rd rd2 _ _   => rd != rd2
  | .mov .. | .li .. | .pair .. | .gethi .. | .cnz .. | .zext8 .. | .zext16 .. | .zext32 .. | .zext64 ..
  | .sext8 .. | .sext16 .. | .sext32 .. | .sext64 .. | .not .. | .and .. | .or .. | .xor .. | .shli .. | .shri ..
  | .shl .. | .shr .. | .roli .. | .rori .. | .rol .. | .ror .. | .add .. | .sub .. | .inc .. | .dec ..
  | .ceq .. | .cne .. | .clt .. | .cle .. | .cgt .. | .cge .. | .mul .. | .div .. | .rem .. | .dacc ..
  | .parse .. | .format .. => true

end Sys2Proof
end

