-- ==== Sys2Proof/Decode.lean ====
section
/-! DEFINITION. Decoding of a 32-bit command word, total and rejecting by name (30_encoding.md R119), from the opcode
map of R105 and the field and must-be-zero masks of R101 and R102; and after it the encoder. -/

namespace Sys2Proof

/-- Why a word spells no command (R307): the three causes of `IllegalCommand`. -/
inductive DecodeError where
  /-- The opcode is not in the table (R115). -/
  | unassignedOpcode
  /-- A must-be-zero bit of the format is 1 (R116). -/
  | mustBeZero
  /-- DIVMOD or DDIV with `rd = rd2` (R117). -/
  | sameDestination
  deriving DecidableEq, Repr

/-! ## Fields of a word (R101) -/

/-- `op`, bits [31:24]. -/
def fOp (c : CmdWord) : BitVec 8 := c.extractLsb' 24 8
/-- `rd`, bits [23:20]. -/
def fRd (c : CmdWord) : Reg := c.extractLsb' 20 4
/-- `rs1`, bits [19:16]. -/
def fRs1 (c : CmdWord) : Reg := c.extractLsb' 16 4
/-- `rs2`, bits [15:12]. -/
def fRs2 (c : CmdWord) : Reg := c.extractLsb' 12 4
/-- `rd2` of format R4, bits [11:8]. -/
def fRd2 (c : CmdWord) : Reg := c.extractLsb' 8 4
/-- `rd2` of format XD, `aux[3:0]`, bits [3:0] (R102). -/
def fRd2X (c : CmdWord) : Reg := c.extractLsb' 0 4
/-- `imm8`, bits [7:0]. -/
def fImm8 (c : CmdWord) : BitVec 8 := c.extractLsb' 0 8
/-- `imm16`, bits [15:0]. -/
def fImm16 (c : CmdWord) : BitVec 16 := c.extractLsb' 0 16
/-- `base`, bits [15:8]. -/
def fBase (c : CmdWord) : BitVec 8 := c.extractLsb' 8 8
/-- `aux`, bits [7:0]. -/
def fAux (c : CmdWord) : BitVec 8 := c.extractLsb' 0 8

/-- The must-be-zero mask of a format (R102). -/
def mustBeZero : Format → CmdWord
  | .R  => 0x00000FFF
  | .R2 => 0x0000FFFF
  | .R4 => 0x000000FF
  | .I  => 0x0000FF00
  | .U  => 0x000F0000
  | .XA => 0x00000000
  | .XD => 0x000000F0
  | .XP => 0x000F00FF
  | .XF => 0x00F00000

/-! ## The opcode map (R105) -/

/-- One row of the opcode map: the opcode, the mnemonic, the format, and the command its fields make. -/
structure Row where
  op       : BitVec 8
  mnemonic : String
  format   : Format
  build    : CmdWord → Instr

/-- `match`: the word with all operand fields zero (R105). -/
def Row.matchWord (r : Row) : CmdWord := r.op ++ 0#24

/-- `mask`: the opcode bits and the must-be-zero bits of the format (R105). -/
def Row.mask (r : Row) : CmdWord := 0xFF000000 ||| mustBeZero r.format

/-- R105: the representation and conversion rows, 0x01-0x0F. -/
def rowsRepresentation : List Row :=
  [ ⟨0x01, "MOV", .R2, fun c => .mov (fRd c) (fRs1 c)⟩
  , ⟨0x02, "LI", .U, fun c => .li (fRd c) (fImm16 c)⟩
  , ⟨0x03, "PAIR", .R, fun c => .pair (fRd c) (fRs1 c) (fRs2 c)⟩
  , ⟨0x04, "GETHI", .R2, fun c => .gethi (fRd c) (fRs1 c)⟩
  , ⟨0x05, "CNZ", .R2, fun c => .cnz (fRd c) (fRs1 c)⟩
  , ⟨0x08, "ZEXT8", .R2, fun c => .zext8 (fRd c) (fRs1 c)⟩
  , ⟨0x09, "ZEXT16", .R2, fun c => .zext16 (fRd c) (fRs1 c)⟩
  , ⟨0x0A, "ZEXT32", .R2, fun c => .zext32 (fRd c) (fRs1 c)⟩
  , ⟨0x0B, "ZEXT64", .R2, fun c => .zext64 (fRd c) (fRs1 c)⟩
  , ⟨0x0C, "SEXT8", .R2, fun c => .sext8 (fRd c) (fRs1 c)⟩
  , ⟨0x0D, "SEXT16", .R2, fun c => .sext16 (fRd c) (fRs1 c)⟩
  , ⟨0x0E, "SEXT32", .R2, fun c => .sext32 (fRd c) (fRs1 c)⟩
  , ⟨0x0F, "SEXT64", .R2, fun c => .sext64 (fRd c) (fRs1 c)⟩ ]

/-- R105: the bitwise and shift rows, 0x10-0x17. -/
def rowsBitwise : List Row :=
  [ ⟨0x10, "NOT", .R2, fun c => .not (fRd c) (fRs1 c)⟩
  , ⟨0x11, "AND", .R, fun c => .and (fRd c) (fRs1 c) (fRs2 c)⟩
  , ⟨0x12, "OR", .R, fun c => .or (fRd c) (fRs1 c) (fRs2 c)⟩
  , ⟨0x13, "XOR", .R, fun c => .xor (fRd c) (fRs1 c) (fRs2 c)⟩
  , ⟨0x14, "SHLI", .I, fun c => .shli (fRd c) (fRs1 c) (fImm8 c)⟩
  , ⟨0x15, "SHRI", .I, fun c => .shri (fRd c) (fRs1 c) (fImm8 c)⟩
  , ⟨0x16, "SHL", .R, fun c => .shl (fRd c) (fRs1 c) (fRs2 c)⟩
  , ⟨0x17, "SHR", .R, fun c => .shr (fRd c) (fRs1 c) (fRs2 c)⟩ ]

/-- R105: the rotation rows, 0x18-0x1B. -/
def rowsRotate : List Row :=
  [ ⟨0x18, "ROLI", .I, fun c => .roli (fRd c) (fRs1 c) (fImm8 c)⟩
  , ⟨0x19, "RORI", .I, fun c => .rori (fRd c) (fRs1 c) (fImm8 c)⟩
  , ⟨0x1A, "ROL", .R, fun c => .rol (fRd c) (fRs1 c) (fRs2 c)⟩
  , ⟨0x1B, "ROR", .R, fun c => .ror (fRd c) (fRs1 c) (fRs2 c)⟩ ]

/-- R105: the additive and ordering rows, 0x20-0x2D. -/
def rowsAdditive : List Row :=
  [ ⟨0x20, "ADD", .R, fun c => .add (fRd c) (fRs1 c) (fRs2 c)⟩
  , ⟨0x21, "SUB", .R, fun c => .sub (fRd c) (fRs1 c) (fRs2 c)⟩
  , ⟨0x22, "INC", .R2, fun c => .inc (fRd c) (fRs1 c)⟩
  , ⟨0x23, "DEC", .R2, fun c => .dec (fRd c) (fRs1 c)⟩
  , ⟨0x28, "CEQ", .R, fun c => .ceq (fRd c) (fRs1 c) (fRs2 c)⟩
  , ⟨0x29, "CNE", .R, fun c => .cne (fRd c) (fRs1 c) (fRs2 c)⟩
  , ⟨0x2A, "CLT", .R, fun c => .clt (fRd c) (fRs1 c) (fRs2 c)⟩
  , ⟨0x2B, "CLE", .R, fun c => .cle (fRd c) (fRs1 c) (fRs2 c)⟩
  , ⟨0x2C, "CGT", .R, fun c => .cgt (fRd c) (fRs1 c) (fRs2 c)⟩
  , ⟨0x2D, "CGE", .R, fun c => .cge (fRd c) (fRs1 c) (fRs2 c)⟩ ]

/-- R105: the multiplication row, 0x30. -/
def rowsMultiply : List Row :=
  [ ⟨0x30, "MUL", .R, fun c => .mul (fRd c) (fRs1 c) (fRs2 c)⟩ ]

/-- R105: the division rows, 0x38-0x3A. -/
def rowsDivide : List Row :=
  [ ⟨0x38, "DIVMOD", .R4, fun c => .divmod (fRd c) (fRd2 c) (fRs1 c) (fRs2 c)⟩
  , ⟨0x39, "DIV", .R, fun c => .div (fRd c) (fRs1 c) (fRs2 c)⟩
  , ⟨0x3A, "REM", .R, fun c => .rem (fRd c) (fRs1 c) (fRs2 c)⟩ ]

/-- R105: the text codec rows, 0x40-0x43. -/
def rowsText : List Row :=
  [ ⟨0x40, "DACC", .XA, fun c => .dacc (fRd c) (fRs1 c) (fBase c) (fAux c)⟩
  , ⟨0x41, "DDIV", .XD, fun c => .ddiv (fRd c) (fRd2X c) (fRs1 c) (fBase c)⟩
  , ⟨0x42, "PARSE", .XP, fun c => .parse (fRd c) (fBase c)⟩
  , ⟨0x43, "FORMAT", .XF, fun c => .format (fRs1 c) (fBase c) (fAux c)⟩ ]

/-- The opcode map: 43 rows with distinct opcodes (R105). The rotations are there because `Config.rotate` is true. -/
def opcodeTable : List Row :=
  rowsRepresentation ++ rowsBitwise ++ (if Config.rotate then rowsRotate else []) ++ rowsAdditive ++ rowsMultiply ++
    rowsDivide ++ rowsText

/-! ## Decoding (R119) -/

/-- The row of an opcode, if it is assigned. -/
def rowOf (op : BitVec 8) : Option Row := opcodeTable.find? fun r => r.op == op

/-- Decoding, total on all 2^32 words: the opcode, then the must-be-zero bits, then the two destinations (R119). -/
def decode (c : CmdWord) : Except DecodeError Instr :=
  match rowOf (fOp c) with
  | none => .error .unassignedOpcode
  | some r =>
    if c &&& mustBeZero r.format ≠ 0 then .error .mustBeZero
    else if (r.build c).wf then .ok (r.build c)
    else .error .sameDestination

/-- The command a word spells, or nothing. -/
def decode? (c : CmdWord) : Option Instr :=
  match decode c with
  | .ok i => some i
  | .error _ => none

/-- The instruction the decoder reads from the `nbits` bits `w`, numbered with bit 0 the least significant of the
word. Every command is one 32-bit word (R100), so a longer row is none. -/
def decodeTableWord (nbits w : Nat) : Option Instr :=
  if nbits ≤ 32 then decode? (BitVec.ofNat 32 w) else none

/-! ## Encoding (R101, R102): the fields of each format from bit 31 down to bit 0 -/

/-- Format R. -/
def encR (op : BitVec 8) (rd rs1 rs2 : Reg) : CmdWord := op ++ rd ++ rs1 ++ rs2 ++ 0#12
/-- Format R2. -/
def encR2 (op : BitVec 8) (rd rs1 : Reg) : CmdWord := op ++ rd ++ rs1 ++ 0#16
/-- Format R4. -/
def encR4 (op : BitVec 8) (rd rd2 rs1 rs2 : Reg) : CmdWord := op ++ rd ++ rs1 ++ rs2 ++ rd2 ++ 0#8
/-- Format I. -/
def encI (op : BitVec 8) (rd rs1 : Reg) (imm8 : BitVec 8) : CmdWord := op ++ rd ++ rs1 ++ 0#8 ++ imm8
/-- Format U. -/
def encU (op : BitVec 8) (rd : Reg) (imm16 : BitVec 16) : CmdWord := op ++ rd ++ 0#4 ++ imm16
/-- Format XA. -/
def encXA (op : BitVec 8) (rd rs1 : Reg) (base aux : BitVec 8) : CmdWord := op ++ rd ++ rs1 ++ base ++ aux
/-- Format XD: `rd2` stands in bits [3:0]. -/
def encXD (op : BitVec 8) (rd rd2 rs1 : Reg) (base : BitVec 8) : CmdWord := op ++ rd ++ rs1 ++ base ++ 0#4 ++ rd2
/-- Format XP. -/
def encXP (op : BitVec 8) (rd : Reg) (base : BitVec 8) : CmdWord := op ++ rd ++ 0#4 ++ base ++ 0#8
/-- Format XF. -/
def encXF (op : BitVec 8) (rs1 : Reg) (base mind : BitVec 8) : CmdWord := op ++ 0#4 ++ rs1 ++ base ++ mind

/-- The word of a command (R101, R102, R105). -/
def encode : Instr → CmdWord
  | .mov rd rs1 => encR2 0x01 rd rs1
  | .li rd imm16 => encU 0x02 rd imm16
  | .pair rd rs1 rs2 => encR 0x03 rd rs1 rs2
  | .gethi rd rs1 => encR2 0x04 rd rs1
  | .cnz rd rs1 => encR2 0x05 rd rs1
  | .zext8 rd rs1 => encR2 0x08 rd rs1
  | .zext16 rd rs1 => encR2 0x09 rd rs1
  | .zext32 rd rs1 => encR2 0x0A rd rs1
  | .zext64 rd rs1 => encR2 0x0B rd rs1
  | .sext8 rd rs1 => encR2 0x0C rd rs1
  | .sext16 rd rs1 => encR2 0x0D rd rs1
  | .sext32 rd rs1 => encR2 0x0E rd rs1
  | .sext64 rd rs1 => encR2 0x0F rd rs1
  | .not rd rs1 => encR2 0x10 rd rs1
  | .and rd rs1 rs2 => encR 0x11 rd rs1 rs2
  | .or rd rs1 rs2 => encR 0x12 rd rs1 rs2
  | .xor rd rs1 rs2 => encR 0x13 rd rs1 rs2
  | .shli rd rs1 imm8 => encI 0x14 rd rs1 imm8
  | .shri rd rs1 imm8 => encI 0x15 rd rs1 imm8
  | .shl rd rs1 rs2 => encR 0x16 rd rs1 rs2
  | .shr rd rs1 rs2 => encR 0x17 rd rs1 rs2
  | .roli rd rs1 imm8 => encI 0x18 rd rs1 imm8
  | .rori rd rs1 imm8 => encI 0x19 rd rs1 imm8
  | .rol rd rs1 rs2 => encR 0x1A rd rs1 rs2
  | .ror rd rs1 rs2 => encR 0x1B rd rs1 rs2
  | .add rd rs1 rs2 => encR 0x20 rd rs1 rs2
  | .sub rd rs1 rs2 => encR 0x21 rd rs1 rs2
  | .inc rd rs1 => encR2 0x22 rd rs1
  | .dec rd rs1 => encR2 0x23 rd rs1
  | .ceq rd rs1 rs2 => encR 0x28 rd rs1 rs2
  | .cne rd rs1 rs2 => encR 0x29 rd rs1 rs2
  | .clt rd rs1 rs2 => encR 0x2A rd rs1 rs2
  | .cle rd rs1 rs2 => encR 0x2B rd rs1 rs2
  | .cgt rd rs1 rs2 => encR 0x2C rd rs1 rs2
  | .cge rd rs1 rs2 => encR 0x2D rd rs1 rs2
  | .mul rd rs1 rs2 => encR 0x30 rd rs1 rs2
  | .divmod rd rd2 rs1 rs2 => encR4 0x38 rd rd2 rs1 rs2
  | .div rd rs1 rs2 => encR 0x39 rd rs1 rs2
  | .rem rd rs1 rs2 => encR 0x3A rd rs1 rs2
  | .dacc rd rs1 base aux => encXA 0x40 rd rs1 base aux
  | .ddiv rd rd2 rs1 base => encXD 0x41 rd rd2 rs1 base
  | .parse rd base => encXP 0x42 rd base
  | .format rs1 base mind => encXF 0x43 rs1 base mind

end Sys2Proof
end

