-- ==== Sys2Proof/Machine/Flags.lean ====
section
/-! DEFINITION. The block has no flags (10_state.md R33). What stands in their place: the fields of STATUS (R34) and how
a boolean result is written (43_additive_order.md R206). -/

namespace Sys2Proof.Machine

/-- The four error kinds (60_exceptions.md R300). -/
inductive ErrorKind where
  | invalidArgument | outOfRange | divisionByZero | illegalCommand
  deriving DecidableEq, Repr

/-- `code(E)` (R300). -/
def ErrorKind.code : ErrorKind → BitVec 3
  | .invalidArgument => 1
  | .outOfRange      => 2
  | .divisionByZero  => 3
  | .illegalCommand  => 4

/-- The position of the kind's sticky bit in STATUS (R34). -/
def ErrorKind.stickyBit : ErrorKind → Nat
  | .invalidArgument => 4
  | .outOfRange      => 5
  | .divisionByZero  => 6
  | .illegalCommand  => 7

/-- `STATUS.CODE`, bits [2:0] (R34). -/
def statusCode (status : BitVec 32) : BitVec 3 := status.extractLsb' 0 3

/-- `STATUS.STICKY_E` (R34). -/
def sticky (e : ErrorKind) (status : BitVec 32) : Bool := status.getLsbD e.stickyBit

/-- STATUS with CODE replaced (R35). -/
def setCode (code : BitVec 3) (status : BitVec 32) : BitVec 32 := (status &&& 0xFFFFFFF8) ||| code.setWidth 32

/-- STATUS after an error of the kind: its code and its sticky bit (R304). -/
def raisedStatus (e : ErrorKind) (status : BitVec 32) : BitVec 32 :=
  setCode e.code status ||| (1#32 <<< e.stickyBit)

/-- STATUS after the host writes `w`: each of the bits 4 to 7 that is 1 in `w` is cleared, all others stay
(R36, R84). -/
def ackStatus (w status : BitVec 32) : BitVec 32 := status &&& ~~~(w &&& 0x000000F0)

/-- `BOOL(p)`: the value 1 or 0 (R206). -/
def boolValue (p : Bool) : Value := if p then Value.one else Value.zero

end Sys2Proof.Machine
end

