-- ==== Sys2Proof/Machine/Ops.lean ====
section
/-! DEFINITION. The named operations over registers, the text buffer and STATUS: each of the storage spaces of
20_memory.md R70 is read and written here and nowhere else; how a command completes and how it raises an error. -/

namespace Sys2Proof.Machine

/-! ## Value registers (10_state.md R30, R31) -/

/-- `x[i]`: read a value register. -/
def readReg (s : State) (i : Reg) : Value := s.v[i.toNat]'i.isLt

/-- `x[i] <- x`: replace a value register whole. -/
def writeReg (i : Reg) (x : Value) (s : State) : State := { s with v := s.v.set i.toNat x i.isLt }

/-! ## The text buffer (R70) -/

/-- The byte written at an index, if any. -/
def Memory.lookup (k : Nat) : Memory → Option Byte
  | [] => none
  | (a, b) :: m => if a = k then some b else Memory.lookup k m

/-- What an index reads as: the byte written there, or else the free value of this reset (U1; log entry 2). -/
def Memory.read (epoch : Nat) (m : Memory) (k : Nat) : Byte := (Memory.lookup k m).getD (Config.tbReset epoch k)

/-- Write one byte, keeping the indexes strictly rising (log entry 3). -/
def Memory.write (k : Nat) (b : Byte) : Memory → Memory
  | [] => [(k, b)]
  | (a, c) :: m =>
    if k < a then (k, b) :: (a, c) :: m
    else if k = a then (k, b) :: m
    else (a, c) :: Memory.write k b m

/-- Write bytes at `k`, `k + 1`, ... -/
def Memory.writeFrom : (k : Nat) → List Byte → Memory → Memory
  | _, [], m => m
  | k, b :: bs, m => Memory.writeFrom (k + 1) bs (Memory.write k b m)

/-- `TBRead(k)`. -/
def tbRead (s : State) (k : Nat) : Byte := Memory.read s.tbEpoch s.tb k

/-- `TBWrite(k, b)`. -/
def tbWrite (k : Nat) (b : Byte) (s : State) : State := { s with tb := Memory.write k b s.tb }

/-- The text in the buffer: `TB[0 .. TLEN-1]`, first character at index 0 (R72). -/
def tbText (s : State) : List Byte := (List.range s.tlen.val).map (tbRead s)

/-- The TLEN register holds `min(n, 256)` (R39). -/
def tlenOf (n : Nat) : Fin 257 := ⟨min n Config.textMax, Nat.lt_succ_of_le (Nat.min_le_right n Config.textMax)⟩

/-- Put a text into the buffer: its bytes at 0, 1, ..., and its length into TLEN; bytes past it stay (R276). -/
def tbPutText (bs : List Byte) (s : State) : State :=
  { s with tb := Memory.writeFrom 0 bs s.tb, tlen := tlenOf bs.length }

/-! ## How a command ends -/

/-- Completing without error: CODE becomes 0; no sticky bit, FAULTCMD or ERRIDX changes (60_exceptions.md R305). -/
def complete (s : State) : Result := .next { s with status := setCode 0 s.status }

/-- RAISING AN ERROR, `raise E(idx)` in the command whose word is `c` (R304): CODE, the kind's sticky bit, FAULTCMD and
ERRIDX. There is no vector, no saved state and no mode (R311), and nothing else is written (R303). -/
def raiseError (e : ErrorKind) (c : CmdWord) (idx : BitVec 8) (s : State) : Result :=
  .next { s with status := raisedStatus e s.status, faultcmd := c, erridx := idx }

/-- THE RETURN FROM AN ERROR: there is none (R312). The host acknowledges by clearing the sticky bits it writes with 1;
CODE, FAULTCMD and ERRIDX stay (10_state.md R36). -/
def acknowledge (w : BitVec 32) (s : State) : State := { s with status := ackStatus w s.status }

/-- Write one result and complete. -/
def finish (rd : Reg) (x : Value) (s : State) : Result := complete (writeReg rd x s)

/-- Write two results, to two different registers, and complete (R345). -/
def finish2 (rd : Reg) (x : Value) (rd2 : Reg) (x2 : Value) (s : State) : Result :=
  complete (writeReg rd2 x2 (writeReg rd x s))

/-! ## Reset (70_reset_and_hazards.md R340) -/

/-- `H_RESET`: every piece of state gets its reset value, and the text buffer is drawn afresh. The host's later
operations stay. DESIGN CHOICE: log entry 15. -/
def resetBlock (s : State) : State :=
  { State.reset with tbEpoch := s.tbEpoch + 1, pending := s.pending, reply := s.reply }

end Sys2Proof.Machine
end

