-- ==== Sys2Proof/Machine/Additive.lean ====
section
/-! DEFINITION. The additive and ordering commands (43_additive_order.md R202 to R212). Overflow wraps and is never reported
(R308); a comparison writes 1 or 0 (R206). -/

namespace Sys2Proof.Machine

/-- ADD (R202). -/
def execAdd (rd rs1 rs2 : Reg) (s : State) : Result :=
  finish rd (add128 (readReg s rs1) (readReg s rs2)) s

/-- SUB (R203). -/
def execSub (rd rs1 rs2 : Reg) (s : State) : Result :=
  finish rd (sub128 (readReg s rs1) (readReg s rs2)) s

/-- INC (R204). -/
def execInc (rd rs1 : Reg) (s : State) : Result :=
  finish rd (inc128 (readReg s rs1)) s

/-- DEC (R205). -/
def execDec (rd rs1 : Reg) (s : State) : Result :=
  finish rd (dec128 (readReg s rs1)) s

/-- CEQ (R207). -/
def execCeq (rd rs1 rs2 : Reg) (s : State) : Result :=
  finish rd (boolValue (eq128 (readReg s rs1) (readReg s rs2))) s

/-- CNE (R208). -/
def execCne (rd rs1 rs2 : Reg) (s : State) : Result :=
  finish rd (boolValue (!eq128 (readReg s rs1) (readReg s rs2))) s

/-- CLT (R209). -/
def execClt (rd rs1 rs2 : Reg) (s : State) : Result :=
  finish rd (boolValue (lt128 (readReg s rs1) (readReg s rs2))) s

/-- CLE (R210). -/
def execCle (rd rs1 rs2 : Reg) (s : State) : Result :=
  finish rd (boolValue (!lt128 (readReg s rs2) (readReg s rs1))) s

/-- CGT (R211). -/
def execCgt (rd rs1 rs2 : Reg) (s : State) : Result :=
  finish rd (boolValue (lt128 (readReg s rs2) (readReg s rs1))) s

/-- CGE (R212). -/
def execCge (rd rs1 rs2 : Reg) (s : State) : Result :=
  finish rd (boolValue (!lt128 (readReg s rs1) (readReg s rs2))) s


end Sys2Proof.Machine
end

