-- ==== Sys2Proof/Machine/Operands.lean ====
section
/-! DEFINITION. The operand forms (30_encoding.md R103, R104) and the conversions of a register's value
(41_representation.md). -/

namespace Sys2Proof.Machine

/-- The LI value: `V(zext_128(imm16))` (R104, R142). -/
def immValue (imm16 : BitVec 16) : Value := Value.ofLow (imm16.setWidth 64)

/-- A shift or rotate amount held in the command: an unsigned integer 0 to 255 (R104, R174). -/
def immAmount (imm8 : BitVec 8) : Nat := imm8.toNat

/-- A shift or rotate amount held in a register: its whole 128-bit value (R174, R180, R185). -/
def regAmount (x : Value) : Nat := x.val

/-- The radix of a command as a value `(0, base)` (R273, R274). -/
def radixValue (base : BitVec 8) : Value := Value.ofLow (base.setWidth 64)

/-- PAIR: the low limbs of two values, the first as `high` (R143). -/
def pairLow (a b : Value) : Value := ⟨a.low, b.low⟩

/-- GETHI: the high limb as a value (R144). -/
def highLimb (a : Value) : Value := Value.ofLow a.high

/-- ZEXT*N*: bits `[N-1:0]`, the rest zero, for `N ≤ 64` (R145 to R148). -/
def zextLow (n : Nat) (a : Value) : Value := Value.ofLow ((a.low.setWidth n).setWidth 64)

/-- SEXT*N*: `V(sext_128(t))` of `t = x.low[N-1:0]` (R149 to R152). -/
def sextLow (n : Nat) (a : Value) : Value := Value.ofBits ((a.low.setWidth n).signExtend 128)

end Sys2Proof.Machine
end

