-- ==== Sys2Proof/Machine/Bitwise.lean ====
section
/-! DEFINITION. The bitwise, shift and rotation commands (42_bitwise_shift.md R170 to R186). Each reads the registers it names
and writes one; bits shifted out are discarded. -/

namespace Sys2Proof.Machine

/-- NOT (R170). -/
def execNot (rd rs1 : Reg) (s : State) : Result :=
  finish rd (not128 (readReg s rs1)) s

/-- AND (R171). -/
def execAnd (rd rs1 rs2 : Reg) (s : State) : Result :=
  finish rd (and128 (readReg s rs1) (readReg s rs2)) s

/-- OR (R172). -/
def execOr (rd rs1 rs2 : Reg) (s : State) : Result :=
  finish rd (or128 (readReg s rs1) (readReg s rs2)) s

/-- XOR (R173). -/
def execXor (rd rs1 rs2 : Reg) (s : State) : Result :=
  finish rd (xor128 (readReg s rs1) (readReg s rs2)) s

/-- SHLI (R178). -/
def execShli (rd rs1 : Reg) (imm8 : BitVec 8) (s : State) : Result :=
  finish rd (shl128 (readReg s rs1) (immAmount imm8)) s

/-- SHRI (R179). -/
def execShri (rd rs1 : Reg) (imm8 : BitVec 8) (s : State) : Result :=
  finish rd (shr128 (readReg s rs1) (immAmount imm8)) s

/-- SHL (R180). -/
def execShl (rd rs1 rs2 : Reg) (s : State) : Result :=
  finish rd (shl128 (readReg s rs1) (regAmount (readReg s rs2))) s

/-- SHR (R181). -/
def execShr (rd rs1 rs2 : Reg) (s : State) : Result :=
  finish rd (shr128 (readReg s rs1) (regAmount (readReg s rs2))) s

/-- ROLI (R183). -/
def execRoli (rd rs1 : Reg) (imm8 : BitVec 8) (s : State) : Result :=
  finish rd (rol128 (readReg s rs1) (immAmount imm8)) s

/-- RORI (R184). -/
def execRori (rd rs1 : Reg) (imm8 : BitVec 8) (s : State) : Result :=
  finish rd (ror128 (readReg s rs1) (immAmount imm8)) s

/-- ROL (R185). -/
def execRol (rd rs1 rs2 : Reg) (s : State) : Result :=
  finish rd (rol128 (readReg s rs1) (regAmount (readReg s rs2))) s

/-- ROR (R186). -/
def execRor (rd rs1 rs2 : Reg) (s : State) : Result :=
  finish rd (ror128 (readReg s rs1) (regAmount (readReg s rs2))) s


end Sys2Proof.Machine
end

