-- ==== Sys2Proof/Machine/Divide.lean ====
section
/-! DEFINITION. The division commands (45_divide.md R253 to R256). -/

namespace Sys2Proof.Machine

/-- The shape DIVMOD, DIV and REM share: the zero test comes before any division step, and a zero divisor raises
`DivisionByZero` whatever the dividend (R256). -/
def withDivisor (c : CmdWord) (d : Value) (s : State) (result : Result) : Result :=
  if d = Value.zero then raiseError .divisionByZero c 0 s else result

/-- DIVMOD (R253). With `rd = rd2` it is no command (R117); decode rejects that word, and a
term of that form answers what issuing the word does. DEDUCED: log entry 6. -/
def execDivmod (rd rd2 rs1 rs2 : Reg) (s : State) : Result :=
  let c := encode (.divmod rd rd2 rs1 rs2)
  if rd = rd2 then raiseError .illegalCommand c 0 s
  else
    let qr := divmod128 (readReg s rs1) (readReg s rs2)
    withDivisor c (readReg s rs2) s (finish2 rd qr.1 rd2 qr.2 s)

/-- DIV (R254). -/
def execDiv (rd rs1 rs2 : Reg) (s : State) : Result :=
  withDivisor (encode (.div rd rs1 rs2)) (readReg s rs2) s (finish rd (divmod128 (readReg s rs1) (readReg s rs2)).1 s)

/-- REM (R255). -/
def execRem (rd rs1 rs2 : Reg) (s : State) : Result :=
  withDivisor (encode (.rem rd rs1 rs2)) (readReg s rs2) s (finish rd (divmod128 (readReg s rs1) (readReg s rs2)).2 s)


end Sys2Proof.Machine
end

