-- ==== Sys2Proof/Machine/Multiply.lean ====
section
/-! DEFINITION. The multiplier command (44_multiply.md R233). -/

namespace Sys2Proof.Machine

/-- MUL (R233). -/
def execMul (rd rs1 rs2 : Reg) (s : State) : Result :=
  finish rd (mul128 (readReg s rs1) (readReg s rs2)) s


end Sys2Proof.Machine
end

