-- ==== Sys2Proof/Machine/Representation.lean ====
section
/-! DEFINITION. The representation and conversion commands (41_representation.md R140 to R154). Each reads the registers it names
and writes one. -/

namespace Sys2Proof.Machine

/-- MOV (R141). -/
def execMov (rd rs1 : Reg) (s : State) : Result :=
  finish rd (readReg s rs1) s

/-- LI (R142). -/
def execLi (rd : Reg) (imm16 : BitVec 16) (s : State) : Result :=
  finish rd (immValue imm16) s

/-- PAIR (R143). -/
def execPair (rd rs1 rs2 : Reg) (s : State) : Result :=
  finish rd (pairLow (readReg s rs1) (readReg s rs2)) s

/-- GETHI (R144). -/
def execGethi (rd rs1 : Reg) (s : State) : Result :=
  finish rd (highLimb (readReg s rs1)) s

/-- CNZ (R153). -/
def execCnz (rd rs1 : Reg) (s : State) : Result :=
  finish rd (boolValue ((readReg s rs1).high != 0 || (readReg s rs1).low != 0)) s

/-- ZEXT8 (R145). -/
def execZext8 (rd rs1 : Reg) (s : State) : Result :=
  finish rd (zextLow 8 (readReg s rs1)) s

/-- ZEXT16 (R146). -/
def execZext16 (rd rs1 : Reg) (s : State) : Result :=
  finish rd (zextLow 16 (readReg s rs1)) s

/-- ZEXT32 (R147). -/
def execZext32 (rd rs1 : Reg) (s : State) : Result :=
  finish rd (zextLow 32 (readReg s rs1)) s

/-- ZEXT64 (R148). -/
def execZext64 (rd rs1 : Reg) (s : State) : Result :=
  finish rd (zextLow 64 (readReg s rs1)) s

/-- SEXT8 (R149). -/
def execSext8 (rd rs1 : Reg) (s : State) : Result :=
  finish rd (sextLow 8 (readReg s rs1)) s

/-- SEXT16 (R150). -/
def execSext16 (rd rs1 : Reg) (s : State) : Result :=
  finish rd (sextLow 16 (readReg s rs1)) s

/-- SEXT32 (R151). -/
def execSext32 (rd rs1 : Reg) (s : State) : Result :=
  finish rd (sextLow 32 (readReg s rs1)) s

/-- SEXT64 (R152). -/
def execSext64 (rd rs1 : Reg) (s : State) : Result :=
  finish rd (sextLow 64 (readReg s rs1)) s


end Sys2Proof.Machine
end

