-- ==== Sys2Proof/Machine/Text.lean ====
section
/-! DEFINITION. Digits, numerals and texts (46_text_codec.md R270 to R272, and the loops of R275 and R276).
Characters are ASCII codes (20_memory.md R71). PRESUMED: log entry 9. -/

namespace Sys2Proof.Machine

/-- `RADIX_OK(base)`: `2 ≤ base ≤ 36` (R270). -/
def radixOk (base : BitVec 8) : Bool :=
  decide (Config.radixMin ≤ base.toNat) && decide (base.toNat ≤ Config.radixMax)

/-- A digit value that is below the radix (R271). -/
def digitBelow (base : BitVec 8) (d : Nat) : Option Nat := if d < base.toNat then some d else none

/-- `digit_value(c, base)`, with `none` for `INVALID` (R271). -/
def digitValue (c : Byte) (base : BitVec 8) : Option Nat :=
  let k := c.toNat
  if 0x30 ≤ k ∧ k ≤ 0x39 then digitBelow base (k - 0x30)
  else if 10 < base.toNat ∧ 0x41 ≤ k ∧ k ≤ 0x5A then digitBelow base (k - 0x41 + 10)
  else if 10 < base.toNat ∧ 0x61 ≤ k ∧ k ≤ 0x7A then digitBelow base (k - 0x61 + 10)
  else none

/-- `digit_char(d)` for `d` in 0..35 (R272). -/
def digitChar (d : Nat) : Byte := if d < 10 then BitVec.ofNat 8 (0x30 + d) else BitVec.ofNat 8 (0x61 + d - 10)

/-- One accumulation step `acc * base + d`, wrapping (R273, R275). -/
def accumulate (base : BitVec 8) (acc : Value) (d : Nat) : Value :=
  add128 (mul128 acc (radixValue base)) (Value.ofLow (BitVec.ofNat 64 d))

/-- The loop of PARSE over the characters from index `k` on: the accumulated value, or the index of the first character
that is no digit (R275). -/
def parseChars (base : BitVec 8) : (k : Nat) → (acc : Value) → List Byte → Except Nat Value
  | _, acc, [] => .ok acc
  | k, acc, c :: cs =>
    match digitValue c base with
    | none   => .error k
    | some d => parseChars base (k + 1) (accumulate base acc d) cs

/-- The first loop of FORMAT: divide by the radix until the value is 0, least significant digit first, for at most the
given number of rounds (R276, R347). DEDUCED: log entry 10. -/
def formatDigits (base : BitVec 8) : Nat → Value → List Byte
  | 0, _ => []
  | k + 1, v =>
    if v = Value.zero then []
    else
      let qr := divmod128 v (radixValue base)
      digitChar qr.2.low.toNat :: formatDigits base k qr.1

/-- The text FORMAT writes: the digits most significant first, padded on the left with `'0'` to `mind` characters
(R276). Where `FORMAT_ZERO_EMPTY` is false, 0 with `mind = 0` is `"0"` (U10); it is true (log entry 8). -/
def formatText (v : Value) (base mind : BitVec 8) : List Byte :=
  let s := (formatDigits base 128 v).reverse
  let least := if Config.formatZeroEmpty then mind.toNat else max 1 mind.toNat
  List.replicate (least - s.length) 0x30 ++ s

end Sys2Proof.Machine
end

