-- ==== Sys2Proof/Machine/TextCodec.lean ====
section
/-! DEFINITION. The radix conversion commands (46_text_codec.md R273 to R276). The radix check comes first (R309). -/

namespace Sys2Proof.Machine

/-- The check every command of this family makes first: a radix outside 2..36 raises `OutOfRange` (R270, R302). -/
def withRadix (c : CmdWord) (base : BitVec 8) (s : State) (result : Result) : Result :=
  if radixOk base then result else raiseError .outOfRange c 0 s

/-- DACC (R273). -/
def execDacc (rd rs1 : Reg) (base aux : BitVec 8) (s : State) : Result :=
  let c := encode (.dacc rd rs1 base aux)
  withRadix c base s <|
    match digitValue aux base with
    | none   => raiseError .invalidArgument c 0 s
    | some d => finish rd (accumulate base (readReg s rs1) d) s

/-- DDIV (R274). With `rd = rd2` it is no command (R117); decode rejects that word, and a term
of that form answers what issuing the word does. DEDUCED: log entry 6. -/
def execDdiv (rd rd2 rs1 : Reg) (base : BitVec 8) (s : State) : Result :=
  let c := encode (.ddiv rd rd2 rs1 base)
  if rd = rd2 then raiseError .illegalCommand c 0 s
  else
    withRadix c base s <|
      let qr := divmod128 (readReg s rs1) (radixValue base)
      finish2 rd qr.1 rd2 (Value.ofLow ((digitChar qr.2.low.toNat).setWidth 64)) s

/-- PARSE (R275). ERRIDX is the index of the first invalid character, and 0 for empty text (R300). -/
def execParse (rd : Reg) (base : BitVec 8) (s : State) : Result :=
  let c := encode (.parse rd base)
  withRadix c base s <|
    if s.tlen = 0 then raiseError .invalidArgument c 0 s
    else
      match parseChars base 0 Value.zero (tbText s) with
      | .error k => raiseError .invalidArgument c (BitVec.ofNat 8 k) s
      | .ok acc  => finish rd acc s

/-- FORMAT (R276). No value register is written. -/
def execFormat (rs1 : Reg) (base mind : BitVec 8) (s : State) : Result :=
  withRadix (encode (.format rs1 base mind)) base s <|
    complete (tbPutText (formatText (readReg s rs1) base mind) s)


end Sys2Proof.Machine
end

