-- ==== Sys2Proof/Machine/Dispatch.lean ====
section
/-! DEFINITION. The meaning of every command, one arm per constructor. -/

namespace Sys2Proof.Machine

def exec (i : Instr) (s : State) : Host.Outcome State Fault Refusal :=
  match i with
  | .mov rd rs1 => Sys2Proof.Machine.execMov rd rs1 s
  | .li rd imm16 => Sys2Proof.Machine.execLi rd imm16 s
  | .pair rd rs1 rs2 => Sys2Proof.Machine.execPair rd rs1 rs2 s
  | .gethi rd rs1 => Sys2Proof.Machine.execGethi rd rs1 s
  | .cnz rd rs1 => Sys2Proof.Machine.execCnz rd rs1 s
  | .zext8 rd rs1 => Sys2Proof.Machine.execZext8 rd rs1 s
  | .zext16 rd rs1 => Sys2Proof.Machine.execZext16 rd rs1 s
  | .zext32 rd rs1 => Sys2Proof.Machine.execZext32 rd rs1 s
  | .zext64 rd rs1 => Sys2Proof.Machine.execZext64 rd rs1 s
  | .sext8 rd rs1 => Sys2Proof.Machine.execSext8 rd rs1 s
  | .sext16 rd rs1 => Sys2Proof.Machine.execSext16 rd rs1 s
  | .sext32 rd rs1 => Sys2Proof.Machine.execSext32 rd rs1 s
  | .sext64 rd rs1 => Sys2Proof.Machine.execSext64 rd rs1 s
  | .not rd rs1 => Sys2Proof.Machine.execNot rd rs1 s
  | .and rd rs1 rs2 => Sys2Proof.Machine.execAnd rd rs1 rs2 s
  | .or rd rs1 rs2 => Sys2Proof.Machine.execOr rd rs1 rs2 s
  | .xor rd rs1 rs2 => Sys2Proof.Machine.execXor rd rs1 rs2 s
  | .shli rd rs1 imm8 => Sys2Proof.Machine.execShli rd rs1 imm8 s
  | .shri rd rs1 imm8 => Sys2Proof.Machine.execShri rd rs1 imm8 s
  | .shl rd rs1 rs2 => Sys2Proof.Machine.execShl rd rs1 rs2 s
  | .shr rd rs1 rs2 => Sys2Proof.Machine.execShr rd rs1 rs2 s
  | .roli rd rs1 imm8 => Sys2Proof.Machine.execRoli rd rs1 imm8 s
  | .rori rd rs1 imm8 => Sys2Proof.Machine.execRori rd rs1 imm8 s
  | .rol rd rs1 rs2 => Sys2Proof.Machine.execRol rd rs1 rs2 s
  | .ror rd rs1 rs2 => Sys2Proof.Machine.execRor rd rs1 rs2 s
  | .add rd rs1 rs2 => Sys2Proof.Machine.execAdd rd rs1 rs2 s
  | .sub rd rs1 rs2 => Sys2Proof.Machine.execSub rd rs1 rs2 s
  | .inc rd rs1 => Sys2Proof.Machine.execInc rd rs1 s
  | .dec rd rs1 => Sys2Proof.Machine.execDec rd rs1 s
  | .ceq rd rs1 rs2 => Sys2Proof.Machine.execCeq rd rs1 rs2 s
  | .cne rd rs1 rs2 => Sys2Proof.Machine.execCne rd rs1 rs2 s
  | .clt rd rs1 rs2 => Sys2Proof.Machine.execClt rd rs1 rs2 s
  | .cle rd rs1 rs2 => Sys2Proof.Machine.execCle rd rs1 rs2 s
  | .cgt rd rs1 rs2 => Sys2Proof.Machine.execCgt rd rs1 rs2 s
  | .cge rd rs1 rs2 => Sys2Proof.Machine.execCge rd rs1 rs2 s
  | .mul rd rs1 rs2 => Sys2Proof.Machine.execMul rd rs1 rs2 s
  | .divmod rd rd2 rs1 rs2 => Sys2Proof.Machine.execDivmod rd rd2 rs1 rs2 s
  | .div rd rs1 rs2 => Sys2Proof.Machine.execDiv rd rs1 rs2 s
  | .rem rd rs1 rs2 => Sys2Proof.Machine.execRem rd rs1 rs2 s
  | .dacc rd rs1 base aux => Sys2Proof.Machine.execDacc rd rs1 base aux s
  | .ddiv rd rd2 rs1 base => Sys2Proof.Machine.execDdiv rd rd2 rs1 base s
  | .parse rd base => Sys2Proof.Machine.execParse rd base s
  | .format rs1 base mind => Sys2Proof.Machine.execFormat rs1 base mind s

end Sys2Proof.Machine
end

