-- ==== Sys2Proof/Machine/HostOps.lean ====
section
/-! DEFINITION. The host operations (20_memory.md R84): what each does to the block and what it answers. -/

namespace Sys2Proof.Machine

/-- `H_ISSUE(c)`: decode `c` and execute it, or raise `IllegalCommand` before any operand is read (R84, R307). -/
def issue (c : CmdWord) (s : State) : Result :=
  match decode c with
  | .ok i    => exec i s
  | .error _ => raiseError .illegalCommand c 0 s

/-- A host read: its result, and nothing of the block changes (R76). -/
def answer (r : Reply) (s : State) : Result := .next { s with reply := some r }

/-- One host operation (R84). -/
def performHostOp (op : HostOp) (s : State) : Result :=
  match op with
  | .reset           => .next (resetBlock s)
  | .writeReg i hi lo => .next (writeReg i ⟨hi, lo⟩ s)
  | .readReg i       => answer (.reg (readReg s i).high (readReg s i).low) s
  | .writeTb k b     => .next (tbWrite k.toNat b s)
  | .readTb k        => answer (.tb (tbRead s k.toNat)) s
  | .writeTlen n     => .next { s with tlen := tlenOf n.toNat }
  | .readTlen        => answer (.tlen s.tlen) s
  | .readStatus      => answer (.status s.status) s
  | .writeStatus w   => .next (acknowledge w s)
  | .readFaultcmd    => answer (.faultcmd s.faultcmd) s
  | .readErridx      => answer (.erridx s.erridx) s
  | .issue c         => issue c s

/-- Take the oldest waiting operation: it leaves the list, and the result of the one before it is gone. -/
def takeOp (rest : List HostOp) (s : State) : State := { s with pending := rest, reply := none }

/-- Perform the oldest waiting operation of the host; with none waiting the block is idle and nothing changes
(R78, R85, R319). DESIGN CHOICE: log entry 1. -/
def advance (s : State) : Result :=
  match s.pending with
  | []         => .next s
  | op :: rest => performHostOp op (takeOp rest s)

/-- Let the host issue the word `w` next. -/
def issueNext (w : Nat) (s : State) : State := { s with pending := .issue (BitVec.ofNat 32 w) :: s.pending }

end Sys2Proof.Machine
end

