-- ==== Sys2Proof/Machine/Step.lean ====
section
/-! DEFINITION. One step: the host's next operation (20_memory.md R78). -/

namespace Sys2Proof.Machine

/-- One step of the machine: the oldest waiting host operation takes full effect (R78). -/
def step (s : State) : Host.Outcome State Fault Refusal := advance s

/-- `s` with the command word `w` as the host's very next `H_ISSUE`. Every word has 32 bits (R100), so `nbits` selects
nothing (log entry 1). -/
def State.withFetchWord (s : State) (_nbits w : Nat) : State := issueNext w s

end Sys2Proof.Machine
end

