-- ==== Sys2Proof/Machine/Asm.lean ====
section
/-! DEFINITION. The assembler's side of the command set: the pseudo-instructions (30_encoding.md R122) and the syntax of
one line (R121). No step of the machine calls anything here. DESIGN CHOICE, for spaces and digits: log entry 16. -/

namespace Sys2Proof.Machine.Asm

/-! ## Pseudo-instructions (R122) -/

/-- `getlo vD, vS`. -/
def getlo (d s : Reg) : List Instr := [.zext64 d s]
/-- `clr vD`. -/
def clr (d : Reg) : List Instr := [.li d 0]
/-- `neg vD, vS`: two commands. -/
def neg (d s : Reg) : List Instr := [.not d s, .inc d d]
/-- `parse vD`. -/
def parseDefault (d : Reg) : List Instr := [.parse d 10]
/-- `format vS`. -/
def formatDefault (s : Reg) : List Instr := [.format s 10 1]
/-- `format vS, base`. -/
def formatBase (s : Reg) (base : BitVec 8) : List Instr := [.format s base 1]
/-- `hex vS`. -/
def hex (s : Reg) : List Instr := [.format s 16 32]

/-! ## Operands of a line (R121) -/

/-- A register `v0`..`v15`, or a number (a quoted character is its code). -/
inductive Operand where
  | reg (r : Reg)
  | num (n : Nat)
  deriving DecidableEq, Repr

/-- The quote around a character operand. -/
def quote : Char := Char.ofNat 39

/-- A decimal digit's value. -/
def decDigit (c : Char) : Option Nat := if 48 ≤ c.toNat ∧ c.toNat ≤ 57 then some (c.toNat - 48) else none

/-- A hexadecimal digit's value. -/
def hexDigit (c : Char) : Option Nat :=
  if 97 ≤ c.toNat ∧ c.toNat ≤ 102 then some (c.toNat - 87)
  else if 65 ≤ c.toNat ∧ c.toNat ≤ 70 then some (c.toNat - 55)
  else decDigit c

/-- The number of a digit string in a base, most significant first. -/
def digitsFrom (digit : Char → Option Nat) (base : Nat) : (acc : Nat) → List Char → Option Nat
  | acc, [] => some acc
  | acc, c :: cs =>
    match digit c with
    | none   => none
    | some d => digitsFrom digit base (acc * base + d) cs

/-- A nonempty digit string. -/
def number (digit : Char → Option Nat) (base : Nat) (cs : List Char) : Option Nat :=
  if cs = [] then none else digitsFrom digit base 0 cs

/-- A register's number, refused where it does not fit its field. -/
def regOperand (cs : List Char) : Option Operand :=
  match number decDigit 10 cs with
  | some n => if n < 16 then some (.reg (BitVec.ofNat 4 n)) else none
  | none   => none

/-- One operand: `vN`, a hexadecimal number with `0x`, a quoted character, or a decimal number. -/
def operand (cs : List Char) : Option Operand :=
  match cs with
  | 'v' :: ds        => regOperand ds
  | '0' :: 'x' :: ds => (number hexDigit 16 ds).map .num
  | [a, c, b]        =>
    if a = quote ∧ b = quote then some (.num c.toNat) else (number decDigit 10 cs).map .num
  | _                => (number decDigit 10 cs).map .num

/-! ## Splitting a line -/

/-- Without the spaces at both ends. -/
def trim (cs : List Char) : List Char :=
  ((cs.dropWhile (· == ' ')).reverse.dropWhile (· == ' ')).reverse

/-- Split at commas; `lit` more characters are taken as they stand (the two after a quote). -/
def splitCommas : List Char → (lit : Nat) → (piece : List Char) → List (List Char)
  | [], _, piece => [piece.reverse]
  | c :: cs, lit + 1, piece => splitCommas cs lit (c :: piece)
  | c :: cs, 0, piece =>
    if c = ',' then piece.reverse :: splitCommas cs 0 []
    else if c = quote then splitCommas cs 2 (c :: piece)
    else splitCommas cs 0 (c :: piece)

/-- The operands of a line, or nothing where one of them is no operand. -/
def operands (cs : List Char) : Option (List Operand) :=
  if trim cs = [] then some [] else (splitCommas cs 0 []).mapM fun p => operand (trim p)

/-! ## One line (R121) -/

/-- A number that fits a field of `w` bits. -/
def fits (w n : Nat) : Option (BitVec w) := if n < 2 ^ w then some (BitVec.ofNat w n) else none

/-- The word of a row for its operands, in the operand order of the row's format (R121). -/
def wordOf (r : Row) (ops : List Operand) : Option CmdWord :=
  match r.format, ops with
  | .R, [.reg d, .reg s, .reg t] => some (encR r.op d s t)
  | .R2, [.reg d, .reg s] => some (encR2 r.op d s)
  | .R4, [.reg q, .reg m, .reg s, .reg t] => some (encR4 r.op q m s t)
  | .I, [.reg d, .reg s, .num n] => (fits 8 n).map (encI r.op d s)
  | .U, [.reg d, .num n] => (fits 16 n).map (encU r.op d)
  | .XA, [.reg d, .reg s, .num b, .num c] => (fits 8 b).bind fun b => (fits 8 c).map (encXA r.op d s b)
  | .XD, [.reg q, .reg m, .reg s, .num b] => (fits 8 b).map (encXD r.op q m s)
  | .XP, [.reg d, .num b] => (fits 8 b).map (encXP r.op d)
  | .XF, [.reg s, .num b, .num m] => (fits 8 b).bind fun b => (fits 8 m).map (encXF r.op s b)
  | _, _ => none

/-- A pseudo-instruction by its name and operands (R122). -/
def pseudo (name : List Char) (ops : List Operand) : Option (List Instr) :=
  match ops with
  | [.reg d, .reg s] =>
    if name = "getlo".toList then some (getlo d s) else if name = "neg".toList then some (neg d s) else none
  | [.reg r] =>
    if name = "clr".toList then some (clr r)
    else if name = "parse".toList then some (parseDefault r)
    else if name = "format".toList then some (formatDefault r)
    else if name = "hex".toList then some (hex r)
    else none
  | [.reg s, .num b] => if name = "format".toList then (fits 8 b).map (formatBase s) else none
  | _ => none

/-- The row of a mnemonic, which a line spells in lower case. -/
def rowNamed (name : List Char) : Option Row :=
  opcodeTable.find? fun r => r.mnemonic.toList.map Char.toLower == name

/-- Assemble one line into command words: a pseudo-instruction's expansion, or the one word of a command (R121,
R122). -/
def assemble (line : List Char) : Option (List CmdWord) :=
  let name := (trim line).takeWhile (· != ' ')
  match operands ((trim line).dropWhile (· != ' ')) with
  | none => none
  | some ops =>
    match pseudo name ops with
    | some is => some (is.map encode)
    | none    => (rowNamed name).bind fun r => (wordOf r ops).map fun c => [c]

end Sys2Proof.Machine.Asm
end

