-- ==== Sys2Proof/Safety.lean ====
section
/-! DEFINITION. The terms the claims are stated in: the invariant of the state, what it is for a command to complete or
to raise an error with nothing else changed, and runs of several commands. -/

namespace Sys2Proof.Machine

/-- STATUS as 10_state.md R34 allows it: reserved bits 0, CODE at most 4. -/
def StatusLegal (w : BitVec 32) : Prop := w &&& 0xFFFFFF08 = 0 ∧ (statusCode w).toNat ≤ 4

/-- The invariant: STATUS is legal, and the text buffer's list is in its canonical form, so that every written index is
in 0..255 (R34, R44, R70). TLEN in 0..256 and the register widths hold by their types. -/
def State.Inv (s : State) : Prop := StatusLegal s.status ∧ Memory.wf s.tb

/-- A safe state: the next step answers a next state (60_exceptions.md R310). -/
def Safe (s : State) : Prop := ∃ t, step s = .next t

/-- STATUS after a success: CODE is 0, every other bit stays, and so do FAULTCMD and ERRIDX (R305). -/
structure CleanStatus (s t : State) : Prop where
  code     : statusCode t.status = 0
  others   : ∀ k, 3 ≤ k → t.status.getLsbD k = s.status.getLsbD k
  faultcmd : t.faultcmd = s.faultcmd
  erridx   : t.erridx = s.erridx

/-- TLEN and every byte of the text buffer read as before. -/
structure SameText (s t : State) : Prop where
  tlen  : t.tlen = s.tlen
  bytes : ∀ k, tbRead t k = tbRead s k

/-- Every value register reads as before. -/
def SameRegs (s t : State) : Prop := ∀ r, readReg t r = readReg s r

/-- The model's own fields are as before. -/
structure SameHost (s t : State) : Prop where
  tbEpoch : t.tbEpoch = s.tbEpoch
  pending : t.pending = s.pending
  reply   : t.reply = s.reply

/-- From `s` to `t`, the register `rd` got the value `x` and nothing else changed but CODE, which is 0. -/
structure Wrote (s t : State) (rd : Reg) (x : Value) : Prop where
  dest   : readReg t rd = x
  others : ∀ r, r ≠ rd → readReg t r = readReg s r
  status : CleanStatus s t
  text   : SameText s t
  host   : SameHost s t

/-- The command completes in every such state, and its whole effect is that `rd` gets `x` (and CODE becomes 0). -/
def CompletesWith (i : Instr) (s : State) (rd : Reg) (x : Value) : Prop := ∃ t, exec i s = .next t ∧ Wrote s t rd x

/-- From `s` to `t`, `rd` got `x`, `rd2` got `x2`, and nothing else changed but CODE, which is 0. -/
structure Wrote2 (s t : State) (rd : Reg) (x : Value) (rd2 : Reg) (x2 : Value) : Prop where
  dest   : readReg t rd = x
  dest2  : readReg t rd2 = x2
  others : ∀ r, r ≠ rd → r ≠ rd2 → readReg t r = readReg s r
  status : CleanStatus s t
  text   : SameText s t
  host   : SameHost s t

/-- The command completes, and its whole effect is two register writes (and CODE becomes 0). -/
def CompletesWith2 (i : Instr) (s : State) (rd : Reg) (x : Value) (rd2 : Reg) (x2 : Value) : Prop :=
  ∃ t, exec i s = .next t ∧ Wrote2 s t rd x rd2 x2

/-- From `s` to `t`, the text `bs` was put into the text buffer at 0, its length into TLEN, and nothing else changed
but CODE, which is 0: every register and every byte outside the text is as before (46_text_codec.md R276). -/
structure WroteText (s t : State) (bs : List Byte) : Prop where
  regs   : SameRegs s t
  inside : ∀ k (h : k < bs.length), tbRead t k = bs[k]
  past   : ∀ k, bs.length ≤ k → tbRead t k = tbRead s k
  tlen   : t.tlen.val = bs.length
  status : CleanStatus s t
  host   : SameHost s t

/-- The command completes, and its whole effect is to put the text `bs` into the buffer (and CODE becomes 0). -/
def CompletesWithText (i : Instr) (s : State) (bs : List Byte) : Prop := ∃ t, exec i s = .next t ∧ WroteText s t bs

/-- From `s` to `t`, the error `e` of the command word `c` was recorded with index `idx`, and nothing else changed:
CODE, the kind's sticky bit, FAULTCMD and ERRIDX (60_exceptions.md R303, R304). -/
structure Recorded (s t : State) (e : ErrorKind) (c : CmdWord) (idx : BitVec 8) : Prop where
  code     : statusCode t.status = e.code
  bit      : sticky e t.status = true
  others   : ∀ k, 3 ≤ k → k ≠ e.stickyBit → t.status.getLsbD k = s.status.getLsbD k
  faultcmd : t.faultcmd = c
  erridx   : t.erridx = idx
  regs     : SameRegs s t
  text     : SameText s t
  host     : SameHost s t

/-- The command raises the error `e`: its whole effect is the record of it. -/
def Raises (i : Instr) (s : State) (e : ErrorKind) (idx : BitVec 8) : Prop :=
  ∃ t, exec i s = .next t ∧ Recorded s t e (encode i) idx

/-- The word `c` spells the command `i` (30_encoding.md R119). -/
def Spells (c : CmdWord) (i : Instr) : Prop := decode c = .ok i

/-- The assigned opcodes of 30_encoding.md R105; every other value of the opcode field is unassigned (R115). -/
def assignedOpcodes : List Nat :=
  [0x01, 0x02, 0x03, 0x04, 0x05, 0x08, 0x09, 0x0A, 0x0B, 0x0C, 0x0D, 0x0E, 0x0F] ++
  [0x10, 0x11, 0x12, 0x13, 0x14, 0x15, 0x16, 0x17, 0x18, 0x19, 0x1A, 0x1B] ++
  [0x20, 0x21, 0x22, 0x23, 0x28, 0x29, 0x2A, 0x2B, 0x2C, 0x2D, 0x30, 0x38, 0x39, 0x3A, 0x40, 0x41, 0x42, 0x43]

/-! ## Operands and digits -/

/-- The value registers a command writes when it completes. -/
def destsOf : Instr → List Reg
  | .mov rd _ | .li rd _ | .pair rd _ _ | .gethi rd _ | .cnz rd _ | .zext8 rd _ | .zext16 rd _ | .zext32 rd _
  | .zext64 rd _ | .sext8 rd _ | .sext16 rd _ | .sext32 rd _ | .sext64 rd _ | .not rd _ | .and rd _ _ | .or rd _ _
  | .xor rd _ _ | .shli rd _ _ | .shri rd _ _ | .shl rd _ _ | .shr rd _ _ | .roli rd _ _ | .rori rd _ _
  | .rol rd _ _ | .ror rd _ _ | .add rd _ _ | .sub rd _ _ | .inc rd _ | .dec rd _ | .ceq rd _ _ | .cne rd _ _
  | .clt rd _ _ | .cle rd _ _ | .cgt rd _ _ | .cge rd _ _ | .mul rd _ _ | .div rd _ _ | .rem rd _ _
  | .dacc rd _ _ _ | .parse rd _ => [rd]
  | .divmod rd rd2 _ _ | .ddiv rd rd2 _ _ => [rd, rd2]
  | .format _ _ _ => []

/-- The value registers a command reads. -/
def srcsOf : Instr → List Reg
  | .mov _ rs1 | .gethi _ rs1 | .cnz _ rs1 | .zext8 _ rs1 | .zext16 _ rs1 | .zext32 _ rs1 | .zext64 _ rs1
  | .sext8 _ rs1 | .sext16 _ rs1 | .sext32 _ rs1 | .sext64 _ rs1 | .not _ rs1 | .shli _ rs1 _ | .shri _ rs1 _
  | .roli _ rs1 _ | .rori _ rs1 _ | .inc _ rs1 | .dec _ rs1 | .dacc _ rs1 _ _ | .ddiv _ _ rs1 _
  | .format rs1 _ _ => [rs1]
  | .pair _ rs1 rs2 | .and _ rs1 rs2 | .or _ rs1 rs2 | .xor _ rs1 rs2 | .shl _ rs1 rs2 | .shr _ rs1 rs2
  | .rol _ rs1 rs2 | .ror _ rs1 rs2 | .add _ rs1 rs2 | .sub _ rs1 rs2 | .ceq _ rs1 rs2 | .cne _ rs1 rs2
  | .clt _ rs1 rs2 | .cle _ rs1 rs2 | .cgt _ rs1 rs2 | .cge _ rs1 rs2 | .mul _ rs1 rs2 | .divmod _ _ rs1 rs2
  | .div _ rs1 rs2 | .rem _ rs1 rs2 => [rs1, rs2]
  | .li _ _ | .parse _ _ => []

/-- The value of the low `n` bits read as a two's-complement number, plus 2^128 where it is negative
(41_representation.md, SEXT). -/
def signedValue (n : Nat) (x : Value) : Value :=
  if x.val % 2 ^ n < 2 ^ (n - 1) then Value.ofNat (x.val % 2 ^ n) else Value.ofNat (2 ^ 128 - 2 ^ n + x.val % 2 ^ n)

/-- Rotation left by `k` places, `k` below 128: the top `k` bits come in at the bottom (42_bitwise_shift.md R182). -/
def rotatedLeft (x : Value) (k : Nat) : Value := Value.ofNat (x.val * 2 ^ k + x.val / 2 ^ (128 - k))

/-- Rotation right by `k` places, `k` below 128: the low `k` bits come in at the top (R182). -/
def rotatedRight (x : Value) (k : Nat) : Value := Value.ofNat (x.val / 2 ^ k + x.val * 2 ^ (128 - k))

/-- The character `c` stands for the digit `d` in radix `base`: `'0'`..`'9'` are 0..9, the letters of either case are
10..35, and the digit is below the radix (46_text_codec.md R271). -/
def IsDigit (base : Nat) (c : Byte) (d : Nat) : Prop :=
  d < base ∧
    ((d < 10 ∧ c.toNat = 0x30 + d) ∨
      (10 ≤ d ∧ d ≤ 35 ∧ (c.toNat = 0x41 + (d - 10) ∨ c.toNat = 0x61 + (d - 10))))

/-- The code of the character FORMAT and DDIV give a digit (R272). -/
def digitCode (d : Nat) : Nat := if d < 10 then 0x30 + d else 0x61 + (d - 10)

/-- The text of a number in a radix, most significant digit first, padded on the left with `'0'` to at least `mind`
characters (R276). -/
def numeral (base mind n : Nat) : List Byte :=
  List.replicate (mind - (Nat.digits base n).length) (BitVec.ofNat 8 0x30) ++
    ((Nat.digits base n).map fun d => BitVec.ofNat 8 (digitCode d)).reverse

/-! ## Runs -/

/-- Several commands one after the other, each from the state the one before it left. -/
def runInstrs : List Instr → State → Result
  | [], s => .next s
  | i :: is, s =>
    match exec i s with
    | .next t    => runInstrs is t
    | .fault f   => .fault f
    | .refused r => .refused r

/-- `s` with the host about to perform `op`. -/
def withOp (op : HostOp) (s : State) : State := { s with pending := op :: s.pending }

/-- Issuing the word `c` raises `IllegalCommand` and does nothing else (60_exceptions.md R307). The earlier reply is
cleared by the model's own step (log entry 4). -/
def IssueIsIllegal (c : CmdWord) (s : State) : Prop :=
  ∃ t, step (withOp (.issue c) s) = .next t ∧ Recorded { s with reply := none } t .illegalCommand c 0

end Sys2Proof.Machine
end

