-- ==== Sys2Proof/Certificates/Slice0/Obligations.lean ====
section
/-! DEFINITION. The statements about the machine, from the numbered rules of the spec. A command's word is written out
from bit 31 down, as 30_encoding.md R102 gives its format. -/

open Sys2Proof Sys2Proof.Machine

/-! ## Reset, the invariant, the step -/

/-- 10_state.md R43: what power-on leaves. The text buffer's bytes are unspecified there, so nothing is said of them. -/
def Obligations.PowerOnState : Prop :=
  (∀ r, readReg State.reset r = Value.zero) ∧ State.reset.status = 0 ∧ State.reset.faultcmd = 0 ∧
    State.reset.erridx = 0 ∧ State.reset.tlen.val = 0

/-- 70_reset_and_hazards.md I1: `H_RESET` gives every register its reset value from any state. That the text buffer reads
as the free value of the current draw, that a reset draws it afresh and keeps the host's later operations, is the
model's (log entries 1, 2, 15). -/
def Obligations.HostResetGivesPowerOnState : Prop :=
  (∀ k, k < 256 → tbRead State.reset k = Config.tbReset State.reset.tbEpoch k) ∧
  ∀ s, ∃ t, step (withOp .reset s) = .next t ∧
    (∀ r, readReg t r = Value.zero) ∧ t.status = 0 ∧ t.faultcmd = 0 ∧ t.erridx = 0 ∧ t.tlen.val = 0 ∧
    (∀ k, k < 256 → tbRead t k = Config.tbReset t.tbEpoch k) ∧ t.tbEpoch ≠ s.tbEpoch ∧ t.pending = s.pending

/-- The invariant holds at power-on: STATUS is legal (10_state.md R34), and the list that holds the text buffer is in its
canonical form. That form is the model's (log entry 3). -/
def Obligations.InvariantHoldsAtReset : Prop := State.reset.Inv

/-- Every step keeps the invariant: STATUS's reserved bits stay 0 and CODE stays at most 4 (10_state.md R34), every written
index of the text buffer stays in 0..255 (20_memory.md R70), and the list that holds it stays strictly rising. That
canonical form of the list is the model's (log entry 3). -/
def Obligations.StepKeepsInvariant : Prop := ∀ s t : State, s.Inv → step s = .next t → t.Inv

/-- The block never stops: every step from every state answers a next state (60_exceptions.md R310). -/
def Obligations.StepAlwaysAnswersNext : Prop := ∀ s, Safe s

/-- With no host operation waiting the block is idle and holds all its state (60_exceptions.md R319). The waiting list
is the model's (log entry 1). -/
def Obligations.IdleStepChangesNothing : Prop := ∀ s : State, s.pending = [] → step s = .next s

/-- A step on an issued word runs the command the word decodes to: the operation leaves the waiting list, the earlier
reply is gone, and the rest is `exec` of that command. The fetch interface does the same. -/
def Obligations.StepRunsTheIssuedCommand : Prop :=
  (∀ (s : State) (c : CmdWord) (rest : List HostOp) (i : Instr), s.pending = .issue c :: rest → Spells c i →
      step s = exec i { s with pending := rest, reply := none }) ∧
  (∀ (s : State) (w : Nat) (i : Instr), Spells (BitVec.ofNat 32 w) i →
      step (s.withFetchWord 32 w) = exec i { s with reply := none })

/-! ## Encoding -/

/-- Every command, at every value of its operands, decodes from its encoding. -/
def Obligations.DecodeOfEncodeIsTheCommand : Prop := ∀ i : Instr, i.wf = true → decode (encode i) = .ok i

/-- Every legal word is the encoding of what it decodes to, so decoding drops no bit, and what it decodes to is well
formed. -/
def Obligations.EncodeOfDecodeIsTheWord : Prop :=
  ∀ (c : CmdWord) (i : Instr), decode c = .ok i → encode i = c ∧ i.wf = true

/-- 30_encoding.md R119: a word is a command exactly when some row's `match`/`mask` pair selects it and it is neither a
DIVMOD with `c[23:20] = c[11:8]` nor a DDIV with `c[23:20] = c[3:0]`. -/
def Obligations.DecodeAcceptsExactlyTheTable : Prop :=
  ∀ c : CmdWord, (∃ i, decode c = .ok i) ↔
    (∃ r ∈ opcodeTable, c &&& r.mask = r.matchWord) ∧
      ¬ (c.extractLsb' 24 8 = 0x38#8 ∧ c.extractLsb' 20 4 = c.extractLsb' 8 4) ∧
      ¬ (c.extractLsb' 24 8 = 0x41#8 ∧ c.extractLsb' 20 4 = c.extractLsb' 0 4)

/-- 30_encoding.md R115, R116, R117: each kind of word that spells no command is rejected by its cause, and issuing it
records `IllegalCommand`. -/
def Obligations.IllegalWordsAreRejectedByCause : Prop :=
  ∀ (s : State) (c : CmdWord),
    ((c.extractLsb' 24 8).toNat ∉ assignedOpcodes → decode c = .error .unassignedOpcode ∧ IssueIsIllegal c s) ∧
    (∀ r ∈ opcodeTable, c.extractLsb' 24 8 = r.op → c &&& mustBeZero r.format ≠ 0 →
      decode c = .error .mustBeZero ∧ IssueIsIllegal c s) ∧
    (c.extractLsb' 24 8 = 0x38#8 → c &&& mustBeZero .R4 = 0 → c.extractLsb' 20 4 = c.extractLsb' 8 4 →
      decode c = .error .sameDestination ∧ IssueIsIllegal c s) ∧
    (c.extractLsb' 24 8 = 0x41#8 → c &&& mustBeZero .XD = 0 → c.extractLsb' 20 4 = c.extractLsb' 0 4 →
      decode c = .error .sameDestination ∧ IssueIsIllegal c s)

/-- 60_exceptions.md R307: issuing a word that decode rejects, for whatever cause, raises `IllegalCommand`: it records
that word with index 0 and changes nothing else. -/
def Obligations.IllegalWordIsRecorded : Prop :=
  ∀ (s : State) (c : CmdWord) (e : DecodeError), decode c = .error e → IssueIsIllegal c s

/-- 30_encoding.md R105: the opcode map's 43 rows, mnemonic, format, match and mask, with distinct opcodes. -/
def Obligations.OpcodeMapIsTheSpecsTable : Prop :=
  (opcodeTable.map fun r => (r.mnemonic, r.format, r.matchWord, r.mask)) =
    [("MOV", .R2, 0x01000000#32, 0xFF00FFFF#32), ("LI", .U, 0x02000000#32, 0xFF0F0000#32),
     ("PAIR", .R, 0x03000000#32, 0xFF000FFF#32), ("GETHI", .R2, 0x04000000#32, 0xFF00FFFF#32),
     ("CNZ", .R2, 0x05000000#32, 0xFF00FFFF#32), ("ZEXT8", .R2, 0x08000000#32, 0xFF00FFFF#32),
     ("ZEXT16", .R2, 0x09000000#32, 0xFF00FFFF#32), ("ZEXT32", .R2, 0x0A000000#32, 0xFF00FFFF#32),
     ("ZEXT64", .R2, 0x0B000000#32, 0xFF00FFFF#32), ("SEXT8", .R2, 0x0C000000#32, 0xFF00FFFF#32),
     ("SEXT16", .R2, 0x0D000000#32, 0xFF00FFFF#32)] ++
    [("SEXT32", .R2, 0x0E000000#32, 0xFF00FFFF#32), ("SEXT64", .R2, 0x0F000000#32, 0xFF00FFFF#32),
     ("NOT", .R2, 0x10000000#32, 0xFF00FFFF#32), ("AND", .R, 0x11000000#32, 0xFF000FFF#32),
     ("OR", .R, 0x12000000#32, 0xFF000FFF#32), ("XOR", .R, 0x13000000#32, 0xFF000FFF#32),
     ("SHLI", .I, 0x14000000#32, 0xFF00FF00#32), ("SHRI", .I, 0x15000000#32, 0xFF00FF00#32),
     ("SHL", .R, 0x16000000#32, 0xFF000FFF#32), ("SHR", .R, 0x17000000#32, 0xFF000FFF#32),
     ("ROLI", .I, 0x18000000#32, 0xFF00FF00#32)] ++
    [("RORI", .I, 0x19000000#32, 0xFF00FF00#32), ("ROL", .R, 0x1A000000#32, 0xFF000FFF#32),
     ("ROR", .R, 0x1B000000#32, 0xFF000FFF#32), ("ADD", .R, 0x20000000#32, 0xFF000FFF#32),
     ("SUB", .R, 0x21000000#32, 0xFF000FFF#32), ("INC", .R2, 0x22000000#32, 0xFF00FFFF#32),
     ("DEC", .R2, 0x23000000#32, 0xFF00FFFF#32), ("CEQ", .R, 0x28000000#32, 0xFF000FFF#32),
     ("CNE", .R, 0x29000000#32, 0xFF000FFF#32), ("CLT", .R, 0x2A000000#32, 0xFF000FFF#32),
     ("CLE", .R, 0x2B000000#32, 0xFF000FFF#32)] ++
    [("CGT", .R, 0x2C000000#32, 0xFF000FFF#32), ("CGE", .R, 0x2D000000#32, 0xFF000FFF#32),
     ("MUL", .R, 0x30000000#32, 0xFF000FFF#32), ("DIVMOD", .R4, 0x38000000#32, 0xFF0000FF#32),
     ("DIV", .R, 0x39000000#32, 0xFF000FFF#32), ("REM", .R, 0x3A000000#32, 0xFF000FFF#32),
     ("DACC", .XA, 0x40000000#32, 0xFF000000#32), ("DDIV", .XD, 0x41000000#32, 0xFF0000F0#32),
     ("PARSE", .XP, 0x42000000#32, 0xFF0F00FF#32), ("FORMAT", .XF, 0x43000000#32, 0xFFF00000#32)] ∧
  (opcodeTable.map Row.op).Pairwise (· ≠ ·)

/-- 30_encoding.md R123: the worked encodings, and one word of each other family, decode to what they spell. -/
def Obligations.WorkedEncodingsDecode : Prop :=
  Spells 0x20123000 (.add 1 2 3) ∧ Spells 0x02401234 (.li 4 0x1234) ∧ Spells 0x14550040 (.shli 5 5 64) ∧
  Spells 0x38689700 (.divmod 6 7 8 9) ∧ Spells 0x40110A37 (.dacc 1 1 10 0x37) ∧
  Spells 0x41221003 (.ddiv 2 3 2 16) ∧ Spells 0x42002400 (.parse 0 36) ∧ Spells 0x43001020 (.format 0 16 32) ∧
  Spells 0x30312000 (.mul 3 1 2)

/-! ## Results: what each command writes, that it completes, and that nothing else changes

`CompletesWith i s rd x` says that `exec i s` answers a next state in which `rd` holds `x`, CODE is 0, and every other
register, status bit, text byte and length is as before. -/

/-- 41_representation.md R141 to R144. -/
def Obligations.MovLiPairGethiResults : Prop :=
  ∀ (s : State) (rd rs1 rs2 : Reg) (imm16 : BitVec 16),
    (Spells (0x01#8 ++ rd ++ rs1 ++ 0#16) (.mov rd rs1) ∧ CompletesWith (.mov rd rs1) s rd (readReg s rs1)) ∧
    (Spells (0x02#8 ++ rd ++ 0#4 ++ imm16) (.li rd imm16) ∧
      CompletesWith (.li rd imm16) s rd (Value.ofNat imm16.toNat)) ∧
    (Spells (0x03#8 ++ rd ++ rs1 ++ rs2 ++ 0#12) (.pair rd rs1 rs2) ∧
      CompletesWith (.pair rd rs1 rs2) s rd ⟨(readReg s rs1).low, (readReg s rs2).low⟩) ∧
    (Spells (0x04#8 ++ rd ++ rs1 ++ 0#16) (.gethi rd rs1) ∧
      CompletesWith (.gethi rd rs1) s rd ⟨0, (readReg s rs1).high⟩)

/-- 41_representation.md R145 to R148: the low bits of the value, as a number. -/
def Obligations.ZeroExtendResults : Prop :=
  ∀ (s : State) (rd rs1 : Reg),
    (Spells (0x08#8 ++ rd ++ rs1 ++ 0#16) (.zext8 rd rs1) ∧
      CompletesWith (.zext8 rd rs1) s rd (Value.ofNat ((readReg s rs1).val % 2 ^ 8))) ∧
    (Spells (0x09#8 ++ rd ++ rs1 ++ 0#16) (.zext16 rd rs1) ∧
      CompletesWith (.zext16 rd rs1) s rd (Value.ofNat ((readReg s rs1).val % 2 ^ 16))) ∧
    (Spells (0x0A#8 ++ rd ++ rs1 ++ 0#16) (.zext32 rd rs1) ∧
      CompletesWith (.zext32 rd rs1) s rd (Value.ofNat ((readReg s rs1).val % 2 ^ 32))) ∧
    (Spells (0x0B#8 ++ rd ++ rs1 ++ 0#16) (.zext64 rd rs1) ∧
      CompletesWith (.zext64 rd rs1) s rd (Value.ofNat ((readReg s rs1).val % 2 ^ 64)))

/-- 41_representation.md R149 to R152: the low bits read as a two's-complement number, plus 2^128 where it is
negative. -/
def Obligations.SignExtendResults : Prop :=
  ∀ (s : State) (rd rs1 : Reg),
    (Spells (0x0C#8 ++ rd ++ rs1 ++ 0#16) (.sext8 rd rs1) ∧
      CompletesWith (.sext8 rd rs1) s rd (signedValue 8 (readReg s rs1))) ∧
    (Spells (0x0D#8 ++ rd ++ rs1 ++ 0#16) (.sext16 rd rs1) ∧
      CompletesWith (.sext16 rd rs1) s rd (signedValue 16 (readReg s rs1))) ∧
    (Spells (0x0E#8 ++ rd ++ rs1 ++ 0#16) (.sext32 rd rs1) ∧
      CompletesWith (.sext32 rd rs1) s rd (signedValue 32 (readReg s rs1))) ∧
    (Spells (0x0F#8 ++ rd ++ rs1 ++ 0#16) (.sext64 rd rs1) ∧
      CompletesWith (.sext64 rd rs1) s rd (signedValue 64 (readReg s rs1)))

/-- 41_representation.md R153: 1 for every nonzero value, 0 for 0. -/
def Obligations.CnzResult : Prop :=
  ∀ (s : State) (rd rs1 : Reg),
    Spells (0x05#8 ++ rd ++ rs1 ++ 0#16) (.cnz rd rs1) ∧
      CompletesWith (.cnz rd rs1) s rd (Value.ofNat (if (readReg s rs1).val = 0 then 0 else 1))

/-- 42_bitwise_shift.md R170 to R173: limb by limb, which is bit by bit on the number. -/
def Obligations.BitwiseResults : Prop :=
  ∀ (s : State) (rd rs1 rs2 : Reg),
    (Spells (0x10#8 ++ rd ++ rs1 ++ 0#16) (.not rd rs1) ∧
      CompletesWith (.not rd rs1) s rd ⟨~~~(readReg s rs1).high, ~~~(readReg s rs1).low⟩ ∧
      CompletesWith (.not rd rs1) s rd (Value.ofNat (2 ^ 128 - 1 - (readReg s rs1).val))) ∧
    (Spells (0x11#8 ++ rd ++ rs1 ++ rs2 ++ 0#12) (.and rd rs1 rs2) ∧
      CompletesWith (.and rd rs1 rs2) s rd
        ⟨(readReg s rs1).high &&& (readReg s rs2).high, (readReg s rs1).low &&& (readReg s rs2).low⟩ ∧
      CompletesWith (.and rd rs1 rs2) s rd (Value.ofNat ((readReg s rs1).val &&& (readReg s rs2).val))) ∧
    (Spells (0x12#8 ++ rd ++ rs1 ++ rs2 ++ 0#12) (.or rd rs1 rs2) ∧
      CompletesWith (.or rd rs1 rs2) s rd
        ⟨(readReg s rs1).high ||| (readReg s rs2).high, (readReg s rs1).low ||| (readReg s rs2).low⟩ ∧
      CompletesWith (.or rd rs1 rs2) s rd (Value.ofNat ((readReg s rs1).val ||| (readReg s rs2).val))) ∧
    (Spells (0x13#8 ++ rd ++ rs1 ++ rs2 ++ 0#12) (.xor rd rs1 rs2) ∧
      CompletesWith (.xor rd rs1 rs2) s rd
        ⟨(readReg s rs1).high ^^^ (readReg s rs2).high, (readReg s rs1).low ^^^ (readReg s rs2).low⟩ ∧
      CompletesWith (.xor rd rs1 rs2) s rd (Value.ofNat ((readReg s rs1).val ^^^ (readReg s rs2).val)))

/-- 42_bitwise_shift.md R178 to R181: multiplication and division by a power of two; an amount of 128 or more, read
as a whole number, gives 0. -/
def Obligations.ShiftResults : Prop :=
  ∀ (s : State) (rd rs1 rs2 : Reg) (imm8 : BitVec 8),
    (Spells (0x14#8 ++ rd ++ rs1 ++ 0#8 ++ imm8) (.shli rd rs1 imm8) ∧
      CompletesWith (.shli rd rs1 imm8) s rd (Value.ofNat ((readReg s rs1).val * 2 ^ imm8.toNat))) ∧
    (Spells (0x15#8 ++ rd ++ rs1 ++ 0#8 ++ imm8) (.shri rd rs1 imm8) ∧
      CompletesWith (.shri rd rs1 imm8) s rd (Value.ofNat ((readReg s rs1).val / 2 ^ imm8.toNat))) ∧
    (Spells (0x16#8 ++ rd ++ rs1 ++ rs2 ++ 0#12) (.shl rd rs1 rs2) ∧
      CompletesWith (.shl rd rs1 rs2) s rd
        (if 128 ≤ (readReg s rs2).val then Value.zero
         else Value.ofNat ((readReg s rs1).val * 2 ^ (readReg s rs2).val))) ∧
    (Spells (0x17#8 ++ rd ++ rs1 ++ rs2 ++ 0#12) (.shr rd rs1 rs2) ∧
      CompletesWith (.shr rd rs1 rs2) s rd
        (if 128 ≤ (readReg s rs2).val then Value.zero
         else Value.ofNat ((readReg s rs1).val / 2 ^ (readReg s rs2).val)))

/-- 42_bitwise_shift.md R183 to R186: the bits shifted out on one side come in on the other; the amount counts modulo
128. -/
def Obligations.RotateResults : Prop :=
  ∀ (s : State) (rd rs1 rs2 : Reg) (imm8 : BitVec 8),
    (Spells (0x18#8 ++ rd ++ rs1 ++ 0#8 ++ imm8) (.roli rd rs1 imm8) ∧
      CompletesWith (.roli rd rs1 imm8) s rd (rotatedLeft (readReg s rs1) (imm8.toNat % 128))) ∧
    (Spells (0x19#8 ++ rd ++ rs1 ++ 0#8 ++ imm8) (.rori rd rs1 imm8) ∧
      CompletesWith (.rori rd rs1 imm8) s rd (rotatedRight (readReg s rs1) (imm8.toNat % 128))) ∧
    (Spells (0x1A#8 ++ rd ++ rs1 ++ rs2 ++ 0#12) (.rol rd rs1 rs2) ∧
      CompletesWith (.rol rd rs1 rs2) s rd (rotatedLeft (readReg s rs1) ((readReg s rs2).low.toNat % 128))) ∧
    (Spells (0x1B#8 ++ rd ++ rs1 ++ rs2 ++ 0#12) (.ror rd rs1 rs2) ∧
      CompletesWith (.ror rd rs1 rs2) s rd (rotatedRight (readReg s rs1) ((readReg s rs2).low.toNat % 128)))

/-- 43_additive_order.md R202 to R205: sums and differences modulo 2^128. -/
def Obligations.AdditiveResults : Prop :=
  ∀ (s : State) (rd rs1 rs2 : Reg),
    (Spells (0x20#8 ++ rd ++ rs1 ++ rs2 ++ 0#12) (.add rd rs1 rs2) ∧
      CompletesWith (.add rd rs1 rs2) s rd (Value.ofNat ((readReg s rs1).val + (readReg s rs2).val))) ∧
    (Spells (0x21#8 ++ rd ++ rs1 ++ rs2 ++ 0#12) (.sub rd rs1 rs2) ∧
      CompletesWith (.sub rd rs1 rs2) s rd (Value.ofNat ((readReg s rs1).val + 2 ^ 128 - (readReg s rs2).val))) ∧
    (Spells (0x22#8 ++ rd ++ rs1 ++ 0#16) (.inc rd rs1) ∧
      CompletesWith (.inc rd rs1) s rd (Value.ofNat ((readReg s rs1).val + 1))) ∧
    (Spells (0x23#8 ++ rd ++ rs1 ++ 0#16) (.dec rd rs1) ∧
      CompletesWith (.dec rd rs1) s rd (Value.ofNat ((readReg s rs1).val + 2 ^ 128 - 1)))

/-- 43_additive_order.md R207 to R212: the comparisons of the numbers, as 1 or 0. -/
def Obligations.CompareResults : Prop :=
  ∀ (s : State) (rd rs1 rs2 : Reg),
    (Spells (0x28#8 ++ rd ++ rs1 ++ rs2 ++ 0#12) (.ceq rd rs1 rs2) ∧
      CompletesWith (.ceq rd rs1 rs2) s rd (Value.ofNat (if (readReg s rs1).val = (readReg s rs2).val then 1 else 0))) ∧
    (Spells (0x29#8 ++ rd ++ rs1 ++ rs2 ++ 0#12) (.cne rd rs1 rs2) ∧
      CompletesWith (.cne rd rs1 rs2) s rd (Value.ofNat (if (readReg s rs1).val ≠ (readReg s rs2).val then 1 else 0))) ∧
    (Spells (0x2A#8 ++ rd ++ rs1 ++ rs2 ++ 0#12) (.clt rd rs1 rs2) ∧
      CompletesWith (.clt rd rs1 rs2) s rd (Value.ofNat (if (readReg s rs1).val < (readReg s rs2).val then 1 else 0))) ∧
    (Spells (0x2B#8 ++ rd ++ rs1 ++ rs2 ++ 0#12) (.cle rd rs1 rs2) ∧
      CompletesWith (.cle rd rs1 rs2) s rd (Value.ofNat (if (readReg s rs1).val ≤ (readReg s rs2).val then 1 else 0))) ∧
    (Spells (0x2C#8 ++ rd ++ rs1 ++ rs2 ++ 0#12) (.cgt rd rs1 rs2) ∧
      CompletesWith (.cgt rd rs1 rs2) s rd (Value.ofNat (if (readReg s rs1).val > (readReg s rs2).val then 1 else 0))) ∧
    (Spells (0x2D#8 ++ rd ++ rs1 ++ rs2 ++ 0#12) (.cge rd rs1 rs2) ∧
      CompletesWith (.cge rd rs1 rs2) s rd (Value.ofNat (if (readReg s rs1).val ≥ (readReg s rs2).val then 1 else 0)))

/-- 44_multiply.md R233: the product modulo 2^128. -/
def Obligations.MulResult : Prop :=
  ∀ (s : State) (rd rs1 rs2 : Reg),
    Spells (0x30#8 ++ rd ++ rs1 ++ rs2 ++ 0#12) (.mul rd rs1 rs2) ∧
      CompletesWith (.mul rd rs1 rs2) s rd (Value.ofNat ((readReg s rs1).val * (readReg s rs2).val))

/-- 45_divide.md R253 to R255: quotient and remainder of the numbers; a zero divisor raises `DivisionByZero`. -/
def Obligations.DivideResults : Prop :=
  ∀ (s : State) (rd rd2 rs1 rs2 : Reg),
    (rd ≠ rd2 →
      Spells (0x38#8 ++ rd ++ rs1 ++ rs2 ++ rd2 ++ 0#8) (.divmod rd rd2 rs1 rs2) ∧
      (readReg s rs2 = Value.zero → Raises (.divmod rd rd2 rs1 rs2) s .divisionByZero 0) ∧
      (readReg s rs2 ≠ Value.zero →
        CompletesWith2 (.divmod rd rd2 rs1 rs2) s rd (Value.ofNat ((readReg s rs1).val / (readReg s rs2).val))
          rd2 (Value.ofNat ((readReg s rs1).val % (readReg s rs2).val)))) ∧
    (Spells (0x39#8 ++ rd ++ rs1 ++ rs2 ++ 0#12) (.div rd rs1 rs2) ∧
      (readReg s rs2 = Value.zero → Raises (.div rd rs1 rs2) s .divisionByZero 0) ∧
      (readReg s rs2 ≠ Value.zero →
        CompletesWith (.div rd rs1 rs2) s rd (Value.ofNat ((readReg s rs1).val / (readReg s rs2).val)))) ∧
    (Spells (0x3A#8 ++ rd ++ rs1 ++ rs2 ++ 0#12) (.rem rd rs1 rs2) ∧
      (readReg s rs2 = Value.zero → Raises (.rem rd rs1 rs2) s .divisionByZero 0) ∧
      (readReg s rs2 ≠ Value.zero →
        CompletesWith (.rem rd rs1 rs2) s rd (Value.ofNat ((readReg s rs1).val % (readReg s rs2).val))))

/-- 45_divide.md R256: a zero divisor is recorded as `DivisionByZero` whatever the dividend, and nothing is written. -/
def Obligations.ZeroDivisorIsRecorded : Prop :=
  ∀ (s : State) (rd rd2 rs1 rs2 : Reg), readReg s rs2 = Value.zero →
    (rd ≠ rd2 → Raises (.divmod rd rd2 rs1 rs2) s .divisionByZero 0) ∧
    Raises (.div rd rs1 rs2) s .divisionByZero 0 ∧ Raises (.rem rd rs1 rs2) s .divisionByZero 0

/-- 30_encoding.md R117: a command term with `rd = rd2`, which no word decodes to, ends as `IllegalCommand`, as issuing
its word does. That `exec` has such a term at all is the model's (log entry 6). -/
def Obligations.SameDestinationIsIllegal : Prop :=
  ∀ (s : State) (rd rs1 rs2 : Reg) (base : BitVec 8),
    Raises (.divmod rd rd rs1 rs2) s .illegalCommand 0 ∧ Raises (.ddiv rd rd rs1 base) s .illegalCommand 0 ∧
    issue (encode (.divmod rd rd rs1 rs2)) s = exec (.divmod rd rd rs1 rs2) s ∧
    issue (encode (.ddiv rd rd rs1 base)) s = exec (.ddiv rd rd rs1 base) s

/-- 46_text_codec.md R273: with a radix in 2..36, a digit character accumulates and any other character raises
`InvalidArgument`; any other radix raises `OutOfRange`. -/
def Obligations.DaccResult : Prop :=
  ∀ (s : State) (rd rs1 : Reg) (base aux : BitVec 8),
    Spells (0x40#8 ++ rd ++ rs1 ++ base ++ aux) (.dacc rd rs1 base aux) ∧
    (¬ (2 ≤ base.toNat ∧ base.toNat ≤ 36) → Raises (.dacc rd rs1 base aux) s .outOfRange 0) ∧
    (2 ≤ base.toNat → base.toNat ≤ 36 →
      (∀ d, IsDigit base.toNat aux d →
        CompletesWith (.dacc rd rs1 base aux) s rd (Value.ofNat ((readReg s rs1).val * base.toNat + d))) ∧
      ((¬ ∃ d, IsDigit base.toNat aux d) → Raises (.dacc rd rs1 base aux) s .invalidArgument 0))

/-- 46_text_codec.md R274: with a radix in 2..36, the quotient by the radix and the character of the remainder; any other
radix raises `OutOfRange`. -/
def Obligations.DdivResult : Prop :=
  ∀ (s : State) (rd rd2 rs1 : Reg) (base : BitVec 8), rd ≠ rd2 →
    Spells (0x41#8 ++ rd ++ rs1 ++ base ++ 0#4 ++ rd2) (.ddiv rd rd2 rs1 base) ∧
    (¬ (2 ≤ base.toNat ∧ base.toNat ≤ 36) → Raises (.ddiv rd rd2 rs1 base) s .outOfRange 0) ∧
    (2 ≤ base.toNat → base.toNat ≤ 36 →
      CompletesWith2 (.ddiv rd rd2 rs1 base) s rd (Value.ofNat ((readReg s rs1).val / base.toNat))
        rd2 (Value.ofNat (digitCode ((readReg s rs1).val % base.toNat))))

/-- 46_text_codec.md R275, R278: with a radix in 2..36 and a text of digits, PARSE writes the numeral's value modulo
2^128, however long it is, and TB and TLEN stay; a bad radix, then an empty text, then the first character that is no
digit raises its error. -/
def Obligations.ParseResult : Prop :=
  ∀ (s : State) (rd : Reg) (base : BitVec 8),
    Spells (0x42#8 ++ rd ++ 0#4 ++ base ++ 0#8) (.parse rd base) ∧
    (¬ (2 ≤ base.toNat ∧ base.toNat ≤ 36) → Raises (.parse rd base) s .outOfRange 0) ∧
    (2 ≤ base.toNat → base.toNat ≤ 36 →
      (s.tlen.val = 0 → Raises (.parse rd base) s .invalidArgument 0) ∧
      (∀ idx : BitVec 8, idx.toNat < s.tlen.val → (∀ j < idx.toNat, ∃ d, IsDigit base.toNat (tbRead s j) d) →
        (¬ ∃ d, IsDigit base.toNat (tbRead s idx.toNat) d) → Raises (.parse rd base) s .invalidArgument idx) ∧
      ∀ ds : List Nat, 0 < s.tlen.val → ds.length = s.tlen.val →
        (∀ k (h : k < ds.length), IsDigit base.toNat (tbRead s k) ds[k]) →
        CompletesWith (.parse rd base) s rd (Value.ofNat (Nat.ofDigits base.toNat ds.reverse)))

/-- 60_exceptions.md R301: an empty text and a character that is no digit in the radix are recorded as `InvalidArgument`,
by PARSE wherever in the text the first such character stands, and by DACC. -/
def Obligations.InvalidArgumentIsRecorded : Prop :=
  ∀ (s : State) (rd rs1 : Reg) (base aux : BitVec 8), 2 ≤ base.toNat → base.toNat ≤ 36 →
    (s.tlen.val = 0 → Raises (.parse rd base) s .invalidArgument 0) ∧
    (∀ k, k < s.tlen.val → (¬ ∃ d, IsDigit base.toNat (tbRead s k) d) →
      ∃ idx : BitVec 8, idx.toNat ≤ k ∧ Raises (.parse rd base) s .invalidArgument idx) ∧
    ((¬ ∃ d, IsDigit base.toNat aux d) → Raises (.dacc rd rs1 base aux) s .invalidArgument 0)

/-- 46_text_codec.md R276, R277: with a radix in 2..36, FORMAT writes the value's digits most significant first at
TB[0], TB[1], ..., padded with '0' to `mind` characters, and their number into TLEN; no register and no byte past the
text changes; the text is empty for the value 0 with `mind = 0` and then only. Any other radix raises `OutOfRange`. -/
def Obligations.FormatResult : Prop :=
  ∀ (s : State) (rs1 : Reg) (base mind : BitVec 8),
    Spells (0x43#8 ++ 0#4 ++ rs1 ++ base ++ mind) (.format rs1 base mind) ∧
    (¬ (2 ≤ base.toNat ∧ base.toNat ≤ 36) → Raises (.format rs1 base mind) s .outOfRange 0) ∧
    (2 ≤ base.toNat → base.toNat ≤ 36 →
      CompletesWithText (.format rs1 base mind) s (numeral base.toNat mind.toNat (readReg s rs1).val) ∧
      (numeral base.toNat mind.toNat (readReg s rs1).val = [] ↔ readReg s rs1 = Value.zero ∧ mind.toNat = 0))

/-- 46_text_codec.md R270, 60_exceptions.md R302: a radix of 0, 1 or 37..255 is recorded as `OutOfRange` by all four commands of the text
codec, whatever else is wrong with their operands. -/
def Obligations.RadixOutOfRangeIsRecorded : Prop :=
  ∀ (s : State) (rd rd2 rs1 : Reg) (base aux : BitVec 8), ¬ (2 ≤ base.toNat ∧ base.toNat ≤ 36) →
    Raises (.dacc rd rs1 base aux) s .outOfRange 0 ∧
    (rd ≠ rd2 → Raises (.ddiv rd rd2 rs1 base) s .outOfRange 0) ∧
    Raises (.parse rd base) s .outOfRange 0 ∧ Raises (.format rs1 base aux) s .outOfRange 0

/-! ## Whole-machine rules -/

/-- 60_exceptions.md R303, R304, R305: every command either completes with CODE 0 and no other change to the status
registers, or records one error of its own word and changes nothing else. -/
def Obligations.CommandCompletesOrRecordsOneError : Prop :=
  ∀ (i : Instr) (s : State), ∃ t, exec i s = .next t ∧
    (CleanStatus s t ∨ ∃ e idx, Recorded s t e (encode i) idx)

/-- 10_state.md R35: CODE after an issued word is 0, or the code of the error that was recorded for that word; after any
host operation but `H_ISSUE` and `H_RESET` it is as before. -/
def Obligations.CodeIsWrittenByEveryCommandOnly : Prop :=
  ∀ (s t : State) (op : HostOp), step (withOp op s) = .next t →
    (∀ c, op = .issue c →
      (statusCode t.status = 0 ∧ t.faultcmd = s.faultcmd) ∨
        ∃ e : ErrorKind, statusCode t.status = e.code ∧ t.faultcmd = c) ∧
    ((∀ c, op ≠ .issue c) → op ≠ .reset → statusCode t.status = statusCode s.status)

/-- 10_state.md R36: a sticky bit becomes 1 when a command raises the error of its kind, and 0 only by the host writing
1 to it or by reset. -/
def Obligations.StickyBitLifecycle : Prop :=
  ∀ (s t : State) (op : HostOp) (e : ErrorKind), step (withOp op s) = .next t →
    sticky e t.status =
      match op with
      | .reset         => false
      | .writeStatus w => sticky e s.status && !w.getLsbD e.stickyBit
      | .issue _       => sticky e s.status || decide (statusCode t.status = e.code)
      | _              => sticky e s.status

/-- 10_state.md R37: FAULTCMD receives the word of a command that raises an error; a success and every other operation
but reset leave it. -/
def Obligations.FaultcmdHoldsTheFailedWord : Prop :=
  ∀ (s t : State) (op : HostOp), step (withOp op s) = .next t →
    t.faultcmd =
      match op with
      | .reset   => 0
      | .issue c => if statusCode t.status = 0 then s.faultcmd else c
      | _        => s.faultcmd

/-- 10_state.md R38: a success and every operation but a command or reset leave ERRIDX; a PARSE that raises
`InvalidArgument` on a character puts that character's index there, the first that is no digit; every other error puts
0. -/
def Obligations.ErridxHoldsTheBadIndex : Prop :=
  ∀ (s t : State) (op : HostOp), step (withOp op s) = .next t →
    match op with
    | .reset   => t.erridx = 0
    | .issue c =>
      (statusCode t.status = 0 → t.erridx = s.erridx) ∧
      (∀ rd base, Spells c (.parse rd base) → statusCode t.status = 1 → 0 < s.tlen.val →
        t.erridx.toNat < s.tlen.val ∧ (¬ ∃ d, IsDigit base.toNat (tbRead s t.erridx.toNat) d) ∧
          ∀ j < t.erridx.toNat, ∃ d, IsDigit base.toNat (tbRead s j) d) ∧
      (statusCode t.status ≠ 0 → (¬ ∃ rd base, Spells c (.parse rd base) ∧ statusCode t.status = 1 ∧ 0 < s.tlen.val) →
        t.erridx = 0)
    | _        => t.erridx = s.erridx

/-- 20_memory.md R83, 10_state.md R31: a value register changes only as the destination of an issued command, by
`H_WRITE_REG` of it, or by reset. -/
def Obligations.RegisterWriters : Prop :=
  ∀ (s t : State) (op : HostOp) (r : Reg), step (withOp op s) = .next t → readReg t r ≠ readReg s r →
    op = .reset ∨ (∃ hi lo, op = .writeReg r hi lo) ∨ ∃ c i, op = .issue c ∧ Spells c i ∧ r ∈ destsOf i

/-- 20_memory.md R70, R83: a text byte changes only by FORMAT below its output length, by `H_WRITE_TB` of it, or by
reset; TLEN only by FORMAT, by `H_WRITE_TLEN` or by reset. -/
def Obligations.TextWriters : Prop :=
  ∀ (s t : State) (op : HostOp), step (withOp op s) = .next t →
    (∀ k, tbRead t k ≠ tbRead s k → op = .reset ∨ (∃ j b, op = .writeTb j b ∧ j.toNat = k) ∨
      ∃ c rs1 base mind, op = .issue c ∧ Spells c (.format rs1 base mind) ∧ k < t.tlen.val) ∧
    (t.tlen ≠ s.tlen → op = .reset ∨ (∃ n, op = .writeTlen n) ∨
      ∃ c rs1 base mind, op = .issue c ∧ Spells c (.format rs1 base mind))

/-- 41_representation.md R140 and the templates of the other families: a command's results depend on nothing but the
registers it names and, for PARSE, the text. Two states that agree on those and on the destinations give the same
destinations and the same CODE, whatever else differs between them. -/
def Obligations.CommandReadsOnlyItsSources : Prop :=
  ∀ (i : Instr) (s1 s2 t1 t2 : State),
    (∀ r, r ∈ srcsOf i ∨ r ∈ destsOf i → readReg s1 r = readReg s2 r) →
    (∀ rd base, i = .parse rd base → s1.tlen = s2.tlen ∧ ∀ k, k < s1.tlen.val → tbRead s1 k = tbRead s2 k) →
    exec i s1 = .next t1 → exec i s2 = .next t2 →
    (∀ r ∈ destsOf i, readReg t1 r = readReg t2 r) ∧ statusCode t1.status = statusCode t2.status ∧
      ∀ rs1 base mind, i = .format rs1 base mind → statusCode t1.status = 0 →
        t1.tlen = t2.tlen ∧ ∀ k, k < t1.tlen.val → tbRead t1 k = tbRead t2 k

/-! ## The host interface (20_memory.md R84). Waiting operations and replies are the model's (log entries 1, 4). -/

/-- `H_WRITE_REG` replaces one register whole and nothing else; `H_READ_REG` answers its limbs. -/
def Obligations.HostRegisterAccess : Prop :=
  ∀ (s : State) (i : Reg) (hi lo : Limb),
    (∃ t, step (withOp (.writeReg i hi lo) s) = .next t ∧ readReg t i = ⟨hi, lo⟩ ∧
      (∀ r, r ≠ i → readReg t r = readReg s r) ∧ t.status = s.status ∧ t.faultcmd = s.faultcmd ∧
      t.erridx = s.erridx ∧ SameText s t) ∧
    step (withOp (.readReg i) s) = .next { s with reply := some (.reg (readReg s i).high (readReg s i).low) }

/-- `H_WRITE_TB` writes one byte and nothing else; `H_READ_TB` answers it. -/
def Obligations.HostTextAccess : Prop :=
  ∀ (s : State) (k : BitVec 8) (b : Byte),
    (∃ t, step (withOp (.writeTb k b) s) = .next t ∧ tbRead t k.toNat = b ∧
      (∀ j, j ≠ k.toNat → tbRead t j = tbRead s j) ∧ t.tlen = s.tlen ∧ SameRegs s t ∧ t.status = s.status ∧
      t.faultcmd = s.faultcmd ∧ t.erridx = s.erridx) ∧
    step (withOp (.readTb k) s) = .next { s with reply := some (.tb (tbRead s k.toNat)) }

/-- 10_state.md R39: `H_WRITE_TLEN(n)` stores `min(n, 256)` and nothing else; `H_READ_TLEN` answers TLEN. -/
def Obligations.HostLengthAccess : Prop :=
  ∀ (s : State) (n : BitVec 16),
    (∃ t, step (withOp (.writeTlen n) s) = .next t ∧ t.tlen.val = min n.toNat 256 ∧ SameRegs s t ∧
      t.status = s.status ∧ t.faultcmd = s.faultcmd ∧ t.erridx = s.erridx ∧ ∀ k, tbRead t k = tbRead s k) ∧
    step (withOp .readTlen s) = .next { s with reply := some (.tlen s.tlen) }

/-- `H_WRITE_STATUS(w)` clears the bits 4 to 7 that are 1 in `w`, all other bits and all other state stay; the three
status reads answer their registers. -/
def Obligations.HostStatusAccess : Prop :=
  ∀ (s : State) (w : BitVec 32),
    (∃ t, step (withOp (.writeStatus w) s) = .next t ∧
      (∀ k, t.status.getLsbD k = if 4 ≤ k ∧ k ≤ 7 ∧ w.getLsbD k = true then false else s.status.getLsbD k) ∧
      SameRegs s t ∧ SameText s t ∧ t.faultcmd = s.faultcmd ∧ t.erridx = s.erridx) ∧
    step (withOp .readStatus s) = .next { s with reply := some (.status s.status) } ∧
    step (withOp .readFaultcmd s) = .next { s with reply := some (.faultcmd s.faultcmd) } ∧
    step (withOp .readErridx s) = .next { s with reply := some (.erridx s.erridx) }

/-! ## The datapath -/

/-- 43_additive_order.md R200: the adder is addition modulo 2^128, and the carry out of the low limb is seen in either
operand. -/
def Obligations.AdderAddsModulo : Prop :=
  ∀ a b : Value, add128 a b = Value.ofNat (a.val + b.val) ∧
    ((a.low + b.low < a.low ↔ 2 ^ 64 ≤ a.low.toNat + b.low.toNat) ∧ (a.low + b.low < a.low ↔ a.low + b.low < b.low))

/-- 43_additive_order.md R201: the subtractor is subtraction modulo 2^128. -/
def Obligations.SubtractorSubtractsModulo : Prop :=
  ∀ a b : Value, sub128 a b = Value.ofNat (a.val + 2 ^ 128 - b.val)

/-- 43_additive_order.md R213: the source's additive laws, and that the order is the order of the numbers and total. -/
def Obligations.AdditiveAndOrderLaws : Prop :=
  ∀ v w : Value, add128 v Value.zero = v ∧ sub128 v v = Value.zero ∧ sub128 (add128 v w) w = v ∧
    (lt128 v w = true ↔ v.val < w.val) ∧
    ((lt128 v w = true ∧ eq128 v w = false ∧ lt128 w v = false) ∨
      (lt128 v w = false ∧ eq128 v w = true ∧ lt128 w v = false) ∨
      (lt128 v w = false ∧ eq128 v w = false ∧ lt128 w v = true))

/-- 43_additive_order.md R202, R203 (corner cases): software recovers the carry after an addition and the borrow before
a subtraction with CLT. -/
def Obligations.CarryAndBorrowRecovered : Prop :=
  ∀ (s : State) (d a b c : Reg), d ≠ a →
    (∃ t, runInstrs [.add d a b, .clt c d a] s = .next t ∧
      readReg t c = Value.ofNat (if 2 ^ 128 ≤ (readReg s a).val + (readReg s b).val then 1 else 0)) ∧
    (∃ t, exec (.clt c a b) s = .next t ∧
      readReg t c = Value.ofNat (if (readReg s a).val < (readReg s b).val then 1 else 0))

/-- 42_bitwise_shift.md R176, R177, R187: the shifts in their four bands, as arithmetic on the number, and the boundary
laws. -/
def Obligations.ShiftBands : Prop :=
  ∀ (h l : Limb) (n : Nat),
    (128 ≤ n → shl128 ⟨h, l⟩ n = ⟨0, 0⟩ ∧ shr128 ⟨h, l⟩ n = ⟨0, 0⟩) ∧
    (64 ≤ n → n ≤ 127 → shl128 ⟨h, l⟩ n = ⟨l <<< (n - 64), 0⟩ ∧ shr128 ⟨h, l⟩ n = ⟨0, h >>> (n - 64)⟩) ∧
    (1 ≤ n → n ≤ 63 → shl128 ⟨h, l⟩ n = ⟨(h <<< n) ||| (l >>> (64 - n)), l <<< n⟩ ∧
      shr128 ⟨h, l⟩ n = ⟨h >>> n, (l >>> n) ||| (h <<< (64 - n))⟩) ∧
    (n = 0 → shl128 ⟨h, l⟩ n = ⟨h, l⟩ ∧ shr128 ⟨h, l⟩ n = ⟨h, l⟩) ∧
    shl128 ⟨h, l⟩ n = Value.ofNat ((⟨h, l⟩ : Value).val * 2 ^ n) ∧
    shr128 ⟨h, l⟩ n = Value.ofNat ((⟨h, l⟩ : Value).val / 2 ^ n) ∧ shl128 ⟨h, l⟩ 64 = ⟨l, 0⟩

/-- 42_bitwise_shift.md R182: a rotation is two shifts, left and right are one another's complement, and by 64 the limbs
swap. -/
def Obligations.RotationLaws : Prop :=
  ∀ (v : Value) (n : Nat),
    (n % 128 = 0 → rol128 v n = v ∧ ror128 v n = v) ∧
    (n % 128 ≠ 0 → rol128 v n = or128 (shl128 v (n % 128)) (shr128 v (128 - n % 128)) ∧
      ror128 v n = or128 (shr128 v (n % 128)) (shl128 v (128 - n % 128))) ∧
    rol128 v n = ror128 v (128 - n % 128) ∧ rol128 v 64 = ⟨v.low, v.high⟩ ∧ ror128 v 64 = ⟨v.low, v.high⟩

/-- 44_multiply.md R234: the sixteen accumulated partial products are the product modulo 2^128, with the source's
laws. -/
def Obligations.MultiplierMultipliesModulo : Prop :=
  ∀ a b : Value, mul128 a b = Value.ofNat (a.val * b.val) ∧ mul128 a Value.one = a ∧
    mul128 a Value.zero = Value.zero ∧
    mul128 (Value.ofNat (2 ^ 128 - 1)) (Value.ofNat 2) = Value.ofNat (2 ^ 128 - 2)

/-- 44_multiply.md R232, R235: where each partial product lands and that none that lands below bit 128 is skipped; and that
with both high limbs 0 the product is exact. -/
def Obligations.PartialProductsAndNarrowMultiply : Prop :=
  ∀ a b : Value,
    (∀ i j, i < 4 → j < 4 → 4 ≤ i + j → partialProduct a b i j = Value.zero) ∧
    (∀ i j, i < 4 → j < 4 → i + j = 0 →
      (partialProduct a b i j).val = (subLimb a i).toNat * (subLimb b j).toNat) ∧
    (∀ i j, i < 4 → j < 4 → i + j = 1 →
      (partialProduct a b i j).val = (subLimb a i).toNat * (subLimb b j).toNat * 2 ^ 32) ∧
    (∀ i j, i < 4 → j < 4 → i + j = 2 →
      partialProduct a b i j = ⟨mul64 (subLimb a i) (subLimb b j), 0⟩ ∧
      (partialProduct a b i j).val = (subLimb a i).toNat * (subLimb b j).toNat * 2 ^ 64) ∧
    (∀ i j, i < 4 → j < 4 → i + j = 3 →
      (partialProduct a b i j).val = (subLimb a i).toNat * (subLimb b j).toNat % 2 ^ 32 * 2 ^ 96) ∧
    (a.high = 0 → b.high = 0 →
      (∀ i j, i < 4 → j < 4 → 2 ≤ i ∨ 2 ≤ j → partialProduct a b i j = Value.zero) ∧
      (mul128 a b).val = a.low.toNat * b.low.toNat)

/-- 45_divide.md R252 and 00_scope.md R11: the restoring divider gives the quotient and the remainder of the numbers;
`bitwidth` brackets the value; where the loop runs, the shifted divisor loses no bit, and with the remainder at 0 every
trial subtraction would fail. -/
def Obligations.RestoringDividerDivides : Prop :=
  bitwidth Value.zero = 0 ∧
  ∀ n d : Value, d ≠ Value.zero →
    divmod128 n d = (Value.ofNat (n.val / d.val), Value.ofNat (n.val % d.val)) ∧
    (divmod128 n d).2.val < d.val ∧ 2 ^ (bitwidth d - 1) ≤ d.val ∧ d.val < 2 ^ bitwidth d ∧
    (lt128 n d = false → 1 ≤ bitwidth d ∧ bitwidth d ≤ bitwidth n ∧ bitwidth n ≤ 128 ∧
      (shl128 d (bitwidth n - bitwidth d)).val = d.val * 2 ^ (bitwidth n - bitwidth d) ∧
      ∀ k ≤ bitwidth n - bitwidth d, lt128 Value.zero (shr128 (shl128 d (bitwidth n - bitwidth d)) k) = true)

/-- 45_divide.md R257, R258: the division invariant, rebuilt with the block's own multiplier and adder, and the case of
a divisor of one limb. -/
def Obligations.DivisionInvariantAndNarrowDivide : Prop :=
  ∀ n d : Value, d ≠ Value.zero →
    add128 (mul128 d (divmod128 n d).1) (divmod128 n d).2 = n ∧ lt128 (divmod128 n d).2 d = true ∧
    d.val * (divmod128 n d).1.val ≤ n.val ∧
    (d.high = 0 → (divmod128 n d).2.high = 0 ∧ ((divmod128 n d).1.high = 0 ↔ n.high < d.low))

/-! ## The text codec as a whole -/

/-- 46_text_codec.md R281: FORMAT of any value, then PARSE in the same radix, gives the value back, for every `mind` of
at least 1; and for `mind = 0` too unless the value is 0, where PARSE then finds an empty text. -/
def Obligations.FormatThenParseRoundTrip : Prop :=
  ∀ (s : State) (rd rs1 : Reg) (base mind : BitVec 8), 2 ≤ base.toNat → base.toNat ≤ 36 →
    ∃ t u, exec (.format rs1 base mind) s = .next t ∧ exec (.parse rd base) t = .next u ∧
      (1 ≤ mind.toNat ∨ readReg s rs1 ≠ Value.zero → readReg u rd = readReg s rs1 ∧ statusCode u.status = 0) ∧
      (mind.toNat = 0 → readReg s rs1 = Value.zero → t.tlen.val = 0 ∧ Recorded t u .invalidArgument
        (encode (.parse rd base)) 0)

/-- 46_text_codec.md R279: with a text of digits, PARSE leaves in its register what LI 0 and one DACC per character
leave there. With a bad character, PARSE raises one error and writes nothing, while the steps before it have written the
part of the numeral that stands before it, and the next DACC fails. -/
def Obligations.ParseIsASequenceOfDaccs : Prop :=
  ∀ (s : State) (rd : Reg) (base : BitVec 8), 2 ≤ base.toNat → base.toNat ≤ 36 → 0 < s.tlen.val →
    ((∀ k, k < s.tlen.val → ∃ d, IsDigit base.toNat (tbRead s k) d) →
      ∃ t u, exec (.parse rd base) s = .next t ∧
        runInstrs (.li rd 0 :: (List.range s.tlen.val).map fun k => .dacc rd rd base (tbRead s k)) s = .next u ∧
        readReg t rd = readReg u rd ∧ statusCode u.status = 0) ∧
    (∀ (idx : BitVec 8) (ds : List Nat), idx.toNat < s.tlen.val → ds.length = idx.toNat →
      (∀ k (h : k < ds.length), IsDigit base.toNat (tbRead s k) ds[k]) →
      (¬ ∃ d, IsDigit base.toNat (tbRead s idx.toNat) d) →
      Raises (.parse rd base) s .invalidArgument idx ∧
      ∃ u, runInstrs (.li rd 0 :: (List.range idx.toNat).map fun k => .dacc rd rd base (tbRead s k)) s = .next u ∧
        readReg u rd = Value.ofNat (Nat.ofDigits base.toNat ds.reverse) ∧
        Raises (.dacc rd rd base (tbRead s idx.toNat)) u .invalidArgument 0)

/-- 46_text_codec.md R280: for a nonzero value, the digits FORMAT writes are the characters that repeated DDIV produces,
the first produced standing last, and the steps change no text. -/
def Obligations.FormatIsASequenceOfDdivs : Prop :=
  ∀ (s : State) (v c : Reg) (base mind : BitVec 8) (k : Nat), 2 ≤ base.toNat → base.toNat ≤ 36 → v ≠ c →
    k < (Nat.digits base.toNat (readReg s v).val).length →
    ∃ t u, exec (.format v base mind) s = .next t ∧
      runInstrs (List.replicate (k + 1) (.ddiv v c v base)) s = .next u ∧
      k < t.tlen.val ∧ readReg u c = Value.ofNat (tbRead t (t.tlen.val - 1 - k)).toNat ∧ SameText s u ∧
      (readReg u v ≠ Value.zero ↔ k + 1 < (Nat.digits base.toNat (readReg s v).val).length)

/-- 46_text_codec.md R282: the digit counts of 2^128 - 1, and that `hex` always writes exactly 32 characters. -/
def Obligations.DigitCountsOfTheLargestValue : Prop :=
  (formatText (Value.ofNat (2 ^ 128 - 1)) 2 0).length = 128 ∧
  (formatText (Value.ofNat (2 ^ 128 - 1)) 8 0).length = 43 ∧
  (formatText (Value.ofNat (2 ^ 128 - 1)) 10 0).length = 39 ∧
  (formatText (Value.ofNat (2 ^ 128 - 1)) 16 0).length = 32 ∧
  (formatText (Value.ofNat (2 ^ 128 - 1)) 36 0).length = 25 ∧
  ∀ (s : State) (r : Reg), ∃ t, runInstrs (Asm.hex r) s = .next t ∧ t.tlen.val = 32

/-- 30_encoding.md R122: the expansions of the pseudo-instructions, and what the first three leave in their destination:
the low limb, 0, and the negation modulo 2^128. -/
def Obligations.PseudoInstructionResults : Prop :=
  ∀ (s : State) (d r : Reg) (base : BitVec 8),
    (Asm.getlo d r = [.zext64 d r] ∧ ∃ t, runInstrs (Asm.getlo d r) s = .next t ∧
      readReg t d = ⟨0, (readReg s r).low⟩) ∧
    (Asm.clr d = [.li d 0] ∧ ∃ t, runInstrs (Asm.clr d) s = .next t ∧ readReg t d = Value.zero) ∧
    (Asm.neg d r = [.not d r, .inc d d] ∧ ∃ t, runInstrs (Asm.neg d r) s = .next t ∧
      readReg t d = Value.ofNat (2 ^ 128 - (readReg s r).val) ∧ ∀ q, q ≠ d → readReg t q = readReg s q) ∧
    Asm.parseDefault d = [.parse d 10] ∧ Asm.formatDefault r = [.format r 10 1] ∧
    Asm.formatBase r base = [.format r base 1] ∧ Asm.hex r = [.format r 16 32]
end

