-- ==== Sys2Proof/Laws/Decode.lean ====
section
/-! SUPPORT. The fields of an encoded word, format by format, and what the must-be-zero masks test. -/

namespace Sys2Proof

/-- A field that lies in the low part of a concatenation. -/
theorem extract_low {a b s l : Nat} (x : BitVec a) (y : BitVec b) (h : s + l ≤ b) :
    (x ++ y).extractLsb' s l = y.extractLsb' s l := by
  apply BitVec.eq_of_getLsbD_eq
  intro i hi
  simp [BitVec.getLsbD_append, hi, show s + i < b by omega]

/-- A field that lies in the high part of a concatenation. -/
theorem extract_high {a b s l : Nat} (x : BitVec a) (y : BitVec b) (h : b ≤ s) :
    (x ++ y).extractLsb' s l = x.extractLsb' (s - b) l := by
  apply BitVec.eq_of_getLsbD_eq
  intro i hi
  simp [BitVec.getLsbD_append, hi, show ¬ s + i < b by omega, show s + i - b = s - b + i by omega]

/-- A field that is all of the word. -/
theorem extract_self {n : Nat} (x : BitVec n) : x.extractLsb' 0 n = x := by
  apply BitVec.eq_of_getLsbD_eq
  intro i hi
  simp [hi]

/-- A mask of `n` ones at bit `lo` tests exactly that field. -/
theorem and_mask_eq_zero {w lo n : Nat} (c : BitVec w) (m : BitVec w)
    (hm : ∀ k, k < w → m.getLsbD k = decide (lo ≤ k ∧ k < lo + n)) (hw : lo + n ≤ w) :
    c &&& m = 0 ↔ c.extractLsb' lo n = 0 := by
  constructor
  · intro h
    apply BitVec.eq_of_getLsbD_eq
    intro i hi
    have := congrArg (BitVec.getLsbD · (lo + i)) h
    rw [BitVec.getLsbD_extractLsb']
    simpa [hm (lo + i) (by omega), hi] using this
  · intro h
    apply BitVec.eq_of_getLsbD_eq
    intro i hi
    rw [BitVec.getLsbD_and, hm i hi]
    by_cases hk : lo ≤ i ∧ i < lo + n
    · have := congrArg (BitVec.getLsbD · (i - lo)) h
      have hc : c.getLsbD i = false := by
        simpa [show i - lo < n by omega, show lo + (i - lo) = i by omega] using this
      simp [hc]
    · simp [hk]

/-- A mask of two parts tests both. -/
theorem and_or_eq_zero {w : Nat} (c a b : BitVec w) : c &&& (a ||| b) = 0 ↔ c &&& a = 0 ∧ c &&& b = 0 := by
  constructor
  · intro h
    constructor <;> apply BitVec.eq_of_getLsbD_eq <;> intro i hi <;>
      have := congrArg (BitVec.getLsbD · i) h <;> simp at this ⊢ <;> tauto
  · rintro ⟨h1, h2⟩
    apply BitVec.eq_of_getLsbD_eq
    intro i hi
    have e1 := congrArg (BitVec.getLsbD · i) h1
    have e2 := congrArg (BitVec.getLsbD · i) h2
    simp at e1 e2 ⊢
    tauto

/-! ## The fields of an encoded word (R101, R102) -/

theorem fields_encR (op : BitVec 8) (rd rs1 rs2 : Reg) :
    fOp (encR op rd rs1 rs2) = op ∧
    fRd (encR op rd rs1 rs2) = rd ∧
    fRs1 (encR op rd rs1 rs2) = rs1 ∧
    fRs2 (encR op rd rs1 rs2) = rs2 ∧
    (encR op rd rs1 rs2).extractLsb' 0 12 = 0 :=
  ⟨by rw [fOp, encR, extract_high _ _ (by decide), extract_high _ _ (by decide), extract_high _ _ (by decide), extract_high _ _ (by decide), extract_self],
    by rw [fRd, encR, extract_high _ _ (by decide), extract_high _ _ (by decide), extract_high _ _ (by decide), extract_low _ _ (by decide), extract_self],
    by rw [fRs1, encR, extract_high _ _ (by decide), extract_high _ _ (by decide), extract_low _ _ (by decide), extract_self],
    by rw [fRs2, encR, extract_high _ _ (by decide), extract_low _ _ (by decide), extract_self],
    by rw [encR, extract_low _ _ (by decide), extract_self]; rfl⟩

theorem fields_encR2 (op : BitVec 8) (rd rs1 : Reg) :
    fOp (encR2 op rd rs1) = op ∧
    fRd (encR2 op rd rs1) = rd ∧
    fRs1 (encR2 op rd rs1) = rs1 ∧
    (encR2 op rd rs1).extractLsb' 0 16 = 0 :=
  ⟨by rw [fOp, encR2, extract_high _ _ (by decide), extract_high _ _ (by decide), extract_high _ _ (by decide), extract_self],
    by rw [fRd, encR2, extract_high _ _ (by decide), extract_high _ _ (by decide), extract_low _ _ (by decide), extract_self],
    by rw [fRs1, encR2, extract_high _ _ (by decide), extract_low _ _ (by decide), extract_self],
    by rw [encR2, extract_low _ _ (by decide), extract_self]; rfl⟩

theorem fields_encR4 (op : BitVec 8) (rd rd2 rs1 rs2 : Reg) :
    fOp (encR4 op rd rd2 rs1 rs2) = op ∧
    fRd (encR4 op rd rd2 rs1 rs2) = rd ∧
    fRs1 (encR4 op rd rd2 rs1 rs2) = rs1 ∧
    fRs2 (encR4 op rd rd2 rs1 rs2) = rs2 ∧
    fRd2 (encR4 op rd rd2 rs1 rs2) = rd2 ∧
    (encR4 op rd rd2 rs1 rs2).extractLsb' 0 8 = 0 :=
  ⟨by rw [fOp, encR4, extract_high _ _ (by decide), extract_high _ _ (by decide), extract_high _ _ (by decide), extract_high _ _ (by decide), extract_high _ _ (by decide), extract_self],
    by rw [fRd, encR4, extract_high _ _ (by decide), extract_high _ _ (by decide), extract_high _ _ (by decide), extract_high _ _ (by decide), extract_low _ _ (by decide), extract_self],
    by rw [fRs1, encR4, extract_high _ _ (by decide), extract_high _ _ (by decide), extract_high _ _ (by decide), extract_low _ _ (by decide), extract_self],
    by rw [fRs2, encR4, extract_high _ _ (by decide), extract_high _ _ (by decide), extract_low _ _ (by decide), extract_self],
    by rw [fRd2, encR4, extract_high _ _ (by decide), extract_low _ _ (by decide), extract_self],
    by rw [encR4, extract_low _ _ (by decide), extract_self]; rfl⟩

theorem fields_encI (op : BitVec 8) (rd rs1 : Reg) (imm8 : BitVec 8) :
    fOp (encI op rd rs1 imm8) = op ∧
    fRd (encI op rd rs1 imm8) = rd ∧
    fRs1 (encI op rd rs1 imm8) = rs1 ∧
    fImm8 (encI op rd rs1 imm8) = imm8 ∧
    (encI op rd rs1 imm8).extractLsb' 8 8 = 0 :=
  ⟨by rw [fOp, encI, extract_high _ _ (by decide), extract_high _ _ (by decide), extract_high _ _ (by decide), extract_high _ _ (by decide), extract_self],
    by rw [fRd, encI, extract_high _ _ (by decide), extract_high _ _ (by decide), extract_high _ _ (by decide), extract_low _ _ (by decide), extract_self],
    by rw [fRs1, encI, extract_high _ _ (by decide), extract_high _ _ (by decide), extract_low _ _ (by decide), extract_self],
    by rw [fImm8, encI, extract_low _ _ (by decide), extract_self],
    by rw [encI, extract_high _ _ (by decide), extract_low _ _ (by decide), extract_self]; rfl⟩

theorem fields_encU (op : BitVec 8) (rd : Reg) (imm16 : BitVec 16) :
    fOp (encU op rd imm16) = op ∧
    fRd (encU op rd imm16) = rd ∧
    fImm16 (encU op rd imm16) = imm16 ∧
    (encU op rd imm16).extractLsb' 16 4 = 0 :=
  ⟨by rw [fOp, encU, extract_high _ _ (by decide), extract_high _ _ (by decide), extract_high _ _ (by decide), extract_self],
    by rw [fRd, encU, extract_high _ _ (by decide), extract_high _ _ (by decide), extract_low _ _ (by decide), extract_self],
    by rw [fImm16, encU, extract_low _ _ (by decide), extract_self],
    by rw [encU, extract_high _ _ (by decide), extract_low _ _ (by decide), extract_self]; rfl⟩

theorem fields_encXA (op : BitVec 8) (rd rs1 : Reg) (base aux : BitVec 8) :
    fOp (encXA op rd rs1 base aux) = op ∧
    fRd (encXA op rd rs1 base aux) = rd ∧
    fRs1 (encXA op rd rs1 base aux) = rs1 ∧
    fBase (encXA op rd rs1 base aux) = base ∧
    fAux (encXA op rd rs1 base aux) = aux :=
  ⟨by rw [fOp, encXA, extract_high _ _ (by decide), extract_high _ _ (by decide), extract_high _ _ (by decide), extract_high _ _ (by decide), extract_self],
    by rw [fRd, encXA, extract_high _ _ (by decide), extract_high _ _ (by decide), extract_high _ _ (by decide), extract_low _ _ (by decide), extract_self],
    by rw [fRs1, encXA, extract_high _ _ (by decide), extract_high _ _ (by decide), extract_low _ _ (by decide), extract_self],
    by rw [fBase, encXA, extract_high _ _ (by decide), extract_low _ _ (by decide), extract_self],
    by rw [fAux, encXA, extract_low _ _ (by decide), extract_self]⟩

theorem fields_encXD (op : BitVec 8) (rd rd2 rs1 : Reg) (base : BitVec 8) :
    fOp (encXD op rd rd2 rs1 base) = op ∧
    fRd (encXD op rd rd2 rs1 base) = rd ∧
    fRs1 (encXD op rd rd2 rs1 base) = rs1 ∧
    fBase (encXD op rd rd2 rs1 base) = base ∧
    fRd2X (encXD op rd rd2 rs1 base) = rd2 ∧
    (encXD op rd rd2 rs1 base).extractLsb' 4 4 = 0 :=
  ⟨by rw [fOp, encXD, extract_high _ _ (by decide), extract_high _ _ (by decide), extract_high _ _ (by decide), extract_high _ _ (by decide), extract_high _ _ (by decide), extract_self],
    by rw [fRd, encXD, extract_high _ _ (by decide), extract_high _ _ (by decide), extract_high _ _ (by decide), extract_high _ _ (by decide), extract_low _ _ (by decide), extract_self],
    by rw [fRs1, encXD, extract_high _ _ (by decide), extract_high _ _ (by decide), extract_high _ _ (by decide), extract_low _ _ (by decide), extract_self],
    by rw [fBase, encXD, extract_high _ _ (by decide), extract_high _ _ (by decide), extract_low _ _ (by decide), extract_self],
    by rw [fRd2X, encXD, extract_low _ _ (by decide), extract_self],
    by rw [encXD, extract_high _ _ (by decide), extract_low _ _ (by decide), extract_self]; rfl⟩

theorem fields_encXP (op : BitVec 8) (rd : Reg) (base : BitVec 8) :
    fOp (encXP op rd base) = op ∧
    fRd (encXP op rd base) = rd ∧
    fBase (encXP op rd base) = base ∧
    (encXP op rd base).extractLsb' 16 4 = 0 ∧
    (encXP op rd base).extractLsb' 0 8 = 0 :=
  ⟨by rw [fOp, encXP, extract_high _ _ (by decide), extract_high _ _ (by decide), extract_high _ _ (by decide), extract_high _ _ (by decide), extract_self],
    by rw [fRd, encXP, extract_high _ _ (by decide), extract_high _ _ (by decide), extract_high _ _ (by decide), extract_low _ _ (by decide), extract_self],
    by rw [fBase, encXP, extract_high _ _ (by decide), extract_low _ _ (by decide), extract_self],
    by rw [encXP, extract_high _ _ (by decide), extract_high _ _ (by decide), extract_low _ _ (by decide), extract_self]; rfl,
    by rw [encXP, extract_low _ _ (by decide), extract_self]; rfl⟩

theorem fields_encXF (op : BitVec 8) (rs1 : Reg) (base mind : BitVec 8) :
    fOp (encXF op rs1 base mind) = op ∧
    fRs1 (encXF op rs1 base mind) = rs1 ∧
    fBase (encXF op rs1 base mind) = base ∧
    fAux (encXF op rs1 base mind) = mind ∧
    (encXF op rs1 base mind).extractLsb' 20 4 = 0 :=
  ⟨by rw [fOp, encXF, extract_high _ _ (by decide), extract_high _ _ (by decide), extract_high _ _ (by decide), extract_high _ _ (by decide), extract_self],
    by rw [fRs1, encXF, extract_high _ _ (by decide), extract_high _ _ (by decide), extract_low _ _ (by decide), extract_self],
    by rw [fBase, encXF, extract_high _ _ (by decide), extract_low _ _ (by decide), extract_self],
    by rw [fAux, encXF, extract_low _ _ (by decide), extract_self],
    by rw [encXF, extract_high _ _ (by decide), extract_high _ _ (by decide), extract_high _ _ (by decide), extract_low _ _ (by decide), extract_self]; rfl⟩

/-! ## The must-be-zero bits of a format, field by field (R102) -/

theorem mbz_R (c : CmdWord) : c &&& mustBeZero .R = 0 ↔ c.extractLsb' 0 12 = 0 :=
  and_mask_eq_zero c _ (by decide) (by decide)

theorem mbz_R2 (c : CmdWord) : c &&& mustBeZero .R2 = 0 ↔ c.extractLsb' 0 16 = 0 :=
  and_mask_eq_zero c _ (by decide) (by decide)

theorem mbz_R4 (c : CmdWord) : c &&& mustBeZero .R4 = 0 ↔ c.extractLsb' 0 8 = 0 :=
  and_mask_eq_zero c _ (by decide) (by decide)

theorem mbz_I (c : CmdWord) : c &&& mustBeZero .I = 0 ↔ c.extractLsb' 8 8 = 0 :=
  and_mask_eq_zero c _ (by decide) (by decide)

theorem mbz_U (c : CmdWord) : c &&& mustBeZero .U = 0 ↔ c.extractLsb' 16 4 = 0 :=
  and_mask_eq_zero c _ (by decide) (by decide)

theorem mbz_XA (c : CmdWord) : c &&& mustBeZero .XA = 0 ↔ True := by simp [mustBeZero]

theorem mbz_XD (c : CmdWord) : c &&& mustBeZero .XD = 0 ↔ c.extractLsb' 4 4 = 0 :=
  and_mask_eq_zero c _ (by decide) (by decide)

theorem mbz_XP (c : CmdWord) : c &&& mustBeZero .XP = 0 ↔ c.extractLsb' 16 4 = 0 ∧ c.extractLsb' 0 8 = 0 := by
  rw [← and_mask_eq_zero c 0x000F0000#32 (by decide) (by decide), ← and_mask_eq_zero c 0x000000FF#32 (by decide) (by decide)]
  rw [show mustBeZero .XP = 0x000F0000#32 ||| 0x000000FF#32 from rfl, and_or_eq_zero]

theorem mbz_XF (c : CmdWord) : c &&& mustBeZero .XF = 0 ↔ c.extractLsb' 20 4 = 0 :=
  and_mask_eq_zero c _ (by decide) (by decide)

end Sys2Proof
end

