-- ==== Sys2Proof/Laws/State.lean ====
section
/-! SUPPORT. One lemma per field per update of the state, true by definition. -/

namespace Sys2Proof.Machine

@[simp] theorem writeReg_v (i : Reg) (x : Value) (s : State) : (writeReg i x s).v = s.v.set i.toNat x i.isLt := rfl
@[simp] theorem writeReg_status (i : Reg) (x : Value) (s : State) : (writeReg i x s).status = s.status := rfl
@[simp] theorem writeReg_faultcmd (i : Reg) (x : Value) (s : State) : (writeReg i x s).faultcmd = s.faultcmd := rfl
@[simp] theorem writeReg_erridx (i : Reg) (x : Value) (s : State) : (writeReg i x s).erridx = s.erridx := rfl
@[simp] theorem writeReg_tlen (i : Reg) (x : Value) (s : State) : (writeReg i x s).tlen = s.tlen := rfl
@[simp] theorem writeReg_tb (i : Reg) (x : Value) (s : State) : (writeReg i x s).tb = s.tb := rfl
@[simp] theorem writeReg_tbEpoch (i : Reg) (x : Value) (s : State) : (writeReg i x s).tbEpoch = s.tbEpoch := rfl
@[simp] theorem writeReg_pending (i : Reg) (x : Value) (s : State) : (writeReg i x s).pending = s.pending := rfl
@[simp] theorem writeReg_reply (i : Reg) (x : Value) (s : State) : (writeReg i x s).reply = s.reply := rfl

@[simp] theorem tbWrite_v (k : Nat) (b : Byte) (s : State) : (tbWrite k b s).v = s.v := rfl
@[simp] theorem tbWrite_status (k : Nat) (b : Byte) (s : State) : (tbWrite k b s).status = s.status := rfl
@[simp] theorem tbWrite_faultcmd (k : Nat) (b : Byte) (s : State) : (tbWrite k b s).faultcmd = s.faultcmd := rfl
@[simp] theorem tbWrite_erridx (k : Nat) (b : Byte) (s : State) : (tbWrite k b s).erridx = s.erridx := rfl
@[simp] theorem tbWrite_tlen (k : Nat) (b : Byte) (s : State) : (tbWrite k b s).tlen = s.tlen := rfl
@[simp] theorem tbWrite_tb (k : Nat) (b : Byte) (s : State) : (tbWrite k b s).tb = Memory.write k b s.tb := rfl
@[simp] theorem tbWrite_tbEpoch (k : Nat) (b : Byte) (s : State) : (tbWrite k b s).tbEpoch = s.tbEpoch := rfl
@[simp] theorem tbWrite_pending (k : Nat) (b : Byte) (s : State) : (tbWrite k b s).pending = s.pending := rfl
@[simp] theorem tbWrite_reply (k : Nat) (b : Byte) (s : State) : (tbWrite k b s).reply = s.reply := rfl

@[simp] theorem tbPutText_v (bs : List Byte) (s : State) : (tbPutText bs s).v = s.v := rfl
@[simp] theorem tbPutText_status (bs : List Byte) (s : State) : (tbPutText bs s).status = s.status := rfl
@[simp] theorem tbPutText_faultcmd (bs : List Byte) (s : State) : (tbPutText bs s).faultcmd = s.faultcmd := rfl
@[simp] theorem tbPutText_erridx (bs : List Byte) (s : State) : (tbPutText bs s).erridx = s.erridx := rfl
@[simp] theorem tbPutText_tlen (bs : List Byte) (s : State) : (tbPutText bs s).tlen = tlenOf bs.length := rfl
@[simp] theorem tbPutText_tb (bs : List Byte) (s : State) : (tbPutText bs s).tb = Memory.writeFrom 0 bs s.tb := rfl
@[simp] theorem tbPutText_tbEpoch (bs : List Byte) (s : State) : (tbPutText bs s).tbEpoch = s.tbEpoch := rfl
@[simp] theorem tbPutText_pending (bs : List Byte) (s : State) : (tbPutText bs s).pending = s.pending := rfl
@[simp] theorem tbPutText_reply (bs : List Byte) (s : State) : (tbPutText bs s).reply = s.reply := rfl

@[simp] theorem acknowledge_v (w : BitVec 32) (s : State) : (acknowledge w s).v = s.v := rfl
@[simp] theorem acknowledge_status (w : BitVec 32) (s : State) : (acknowledge w s).status = ackStatus w s.status := rfl
@[simp] theorem acknowledge_faultcmd (w : BitVec 32) (s : State) : (acknowledge w s).faultcmd = s.faultcmd := rfl
@[simp] theorem acknowledge_erridx (w : BitVec 32) (s : State) : (acknowledge w s).erridx = s.erridx := rfl
@[simp] theorem acknowledge_tlen (w : BitVec 32) (s : State) : (acknowledge w s).tlen = s.tlen := rfl
@[simp] theorem acknowledge_tb (w : BitVec 32) (s : State) : (acknowledge w s).tb = s.tb := rfl
@[simp] theorem acknowledge_tbEpoch (w : BitVec 32) (s : State) : (acknowledge w s).tbEpoch = s.tbEpoch := rfl
@[simp] theorem acknowledge_pending (w : BitVec 32) (s : State) : (acknowledge w s).pending = s.pending := rfl
@[simp] theorem acknowledge_reply (w : BitVec 32) (s : State) : (acknowledge w s).reply = s.reply := rfl

@[simp] theorem resetBlock_v (s : State) : (resetBlock s).v = Vector.replicate Config.nreg Value.zero := rfl
@[simp] theorem resetBlock_status (s : State) : (resetBlock s).status = 0 := rfl
@[simp] theorem resetBlock_faultcmd (s : State) : (resetBlock s).faultcmd = 0 := rfl
@[simp] theorem resetBlock_erridx (s : State) : (resetBlock s).erridx = 0 := rfl
@[simp] theorem resetBlock_tlen (s : State) : (resetBlock s).tlen = 0 := rfl
@[simp] theorem resetBlock_tb (s : State) : (resetBlock s).tb = [] := rfl
@[simp] theorem resetBlock_tbEpoch (s : State) : (resetBlock s).tbEpoch = s.tbEpoch + 1 := rfl
@[simp] theorem resetBlock_pending (s : State) : (resetBlock s).pending = s.pending := rfl
@[simp] theorem resetBlock_reply (s : State) : (resetBlock s).reply = s.reply := rfl

@[simp] theorem takeOp_v (rest : List HostOp) (s : State) : (takeOp rest s).v = s.v := rfl
@[simp] theorem takeOp_status (rest : List HostOp) (s : State) : (takeOp rest s).status = s.status := rfl
@[simp] theorem takeOp_faultcmd (rest : List HostOp) (s : State) : (takeOp rest s).faultcmd = s.faultcmd := rfl
@[simp] theorem takeOp_erridx (rest : List HostOp) (s : State) : (takeOp rest s).erridx = s.erridx := rfl
@[simp] theorem takeOp_tlen (rest : List HostOp) (s : State) : (takeOp rest s).tlen = s.tlen := rfl
@[simp] theorem takeOp_tb (rest : List HostOp) (s : State) : (takeOp rest s).tb = s.tb := rfl
@[simp] theorem takeOp_tbEpoch (rest : List HostOp) (s : State) : (takeOp rest s).tbEpoch = s.tbEpoch := rfl
@[simp] theorem takeOp_pending (rest : List HostOp) (s : State) : (takeOp rest s).pending = rest := rfl
@[simp] theorem takeOp_reply (rest : List HostOp) (s : State) : (takeOp rest s).reply = none := rfl

@[simp] theorem issueNext_v (w : Nat) (s : State) : (issueNext w s).v = s.v := rfl
@[simp] theorem issueNext_status (w : Nat) (s : State) : (issueNext w s).status = s.status := rfl
@[simp] theorem issueNext_faultcmd (w : Nat) (s : State) : (issueNext w s).faultcmd = s.faultcmd := rfl
@[simp] theorem issueNext_erridx (w : Nat) (s : State) : (issueNext w s).erridx = s.erridx := rfl
@[simp] theorem issueNext_tlen (w : Nat) (s : State) : (issueNext w s).tlen = s.tlen := rfl
@[simp] theorem issueNext_tb (w : Nat) (s : State) : (issueNext w s).tb = s.tb := rfl
@[simp] theorem issueNext_tbEpoch (w : Nat) (s : State) : (issueNext w s).tbEpoch = s.tbEpoch := rfl
@[simp] theorem issueNext_pending (w : Nat) (s : State) : (issueNext w s).pending = .issue (BitVec.ofNat 32 w) :: s.pending := rfl
@[simp] theorem issueNext_reply (w : Nat) (s : State) : (issueNext w s).reply = s.reply := rfl

end Sys2Proof.Machine
end

