-- ==== Sys2Proof/Laws/Memory.lean ====
section
/-! SUPPORT. The text buffer: a read after a write, and that every operation keeps the canonical form. -/

namespace Sys2Proof.Machine

theorem Memory.lookup_write (k j : Nat) (b : Byte) (m : Memory) :
    Memory.lookup j (Memory.write k b m) = if k = j then some b else Memory.lookup j m := by
  induction m with
  | nil => rfl
  | cons e m ih =>
    obtain ⟨a, c⟩ := e
    simp only [Memory.write]
    split
    · simp only [Memory.lookup]
    · split
      · subst k; simp only [Memory.lookup]; split <;> rfl
      · simp only [Memory.lookup, ih]
        split
        · rw [if_neg (by omega)]
        · rfl

/-- A byte written reads back; every other index reads as before. -/
theorem Memory.read_write (e k j : Nat) (b : Byte) (m : Memory) :
    Memory.read e (Memory.write k b m) j = if k = j then b else Memory.read e m j := by
  simp only [Memory.read, Memory.lookup_write]; split <;> rfl

/-- Bytes written from `k` on read back; every other index reads as before. -/
theorem Memory.read_writeFrom (e : Nat) (bs : List Byte) (k j : Nat) (m : Memory) :
    Memory.read e (Memory.writeFrom k bs m) j =
      if h : k ≤ j ∧ j - k < bs.length then bs[j - k] else Memory.read e m j := by
  induction bs generalizing k m with
  | nil => simp [Memory.writeFrom]
  | cons b bs ih =>
    rw [Memory.writeFrom, ih, Memory.read_write]
    by_cases h : k = j
    · subst h; simp
    · by_cases h2 : k ≤ j
      · obtain ⟨n, rfl⟩ := Nat.exists_eq_add_of_lt (Nat.lt_of_le_of_ne h2 h)
        have e1 : k + n + 1 - k = n + 1 := by omega
        have e2 : k + n + 1 - (k + 1) = n := by omega
        simp [e1, e2, h2, if_neg h]
      · simp [h, h2, show ¬ k + 1 ≤ j by omega]

/-- Which indexes are listed after a write. -/
theorem Memory.mem_keys_write {k j : Nat} {b : Byte} {m : Memory} :
    j ∈ (Memory.write k b m).map Prod.fst ↔ j = k ∨ j ∈ m.map Prod.fst := by
  induction m with
  | nil => simp [Memory.write]
  | cons e m ih =>
    obtain ⟨a, c⟩ := e
    simp only [Memory.write]
    split
    · simp
    · split
      · subst k; simp
      · simp only [List.map_cons, List.mem_cons, ih]; tauto

/-- A write keeps the canonical form. -/
theorem Memory.wf_write {k : Nat} {b : Byte} {m : Memory} (hk : k < 256) (h : Memory.wf m) :
    Memory.wf (Memory.write k b m) := by
  refine ⟨?_, fun j hj => ?_⟩
  · have hp := h.1
    clear h
    induction m with
    | nil => simp [Memory.write]
    | cons e m ih =>
      obtain ⟨a, c⟩ := e
      simp only [List.map_cons, List.pairwise_cons] at hp
      simp only [Memory.write]
      split
      · simp only [List.map_cons, List.pairwise_cons, List.mem_cons]
        refine ⟨fun j hj => ?_, hp⟩
        rcases hj with rfl | hj
        · assumption
        · exact Nat.lt_trans ‹_› (hp.1 j hj)
      · split
        · subst k; simpa using hp
        · simp only [List.map_cons, List.pairwise_cons]
          refine ⟨fun j hj => ?_, ih hp.2⟩
          rcases Memory.mem_keys_write.1 hj with rfl | hj
          · omega
          · exact hp.1 j hj
  · rcases Memory.mem_keys_write.1 hj with rfl | hj
    · exact hk
    · exact h.2 j hj

/-- Writing a text that fits keeps the canonical form. -/
theorem Memory.wf_writeFrom {bs : List Byte} {k : Nat} {m : Memory} (hk : k + bs.length ≤ 256) (h : Memory.wf m) :
    Memory.wf (Memory.writeFrom k bs m) := by
  induction bs generalizing k m with
  | nil => exact h
  | cons b bs ih =>
    simp only [List.length_cons] at hk
    exact ih (by omega) (Memory.wf_write (by omega) h)

theorem Memory.wf_nil : Memory.wf [] := ⟨List.Pairwise.nil, fun _ h => by simp at h⟩

/-! ## Through the state -/

theorem tbRead_tbWrite (s : State) (k j : Nat) (b : Byte) :
    tbRead (tbWrite k b s) j = if k = j then b else tbRead s j := Memory.read_write _ _ _ _ _

theorem tbRead_tbPutText (s : State) (bs : List Byte) (j : Nat) :
    tbRead (tbPutText bs s) j = if h : j < bs.length then bs[j] else tbRead s j := by
  have := Memory.read_writeFrom s.tbEpoch bs 0 j s.tb
  simpa [tbRead] using this

@[simp] theorem tbRead_writeReg (s : State) (i : Reg) (x : Value) (k : Nat) :
    tbRead (writeReg i x s) k = tbRead s k := rfl

/-- The length register takes a length of at most 256 as it is. -/
theorem tlenOf_val {n : Nat} (h : n ≤ 256) : (tlenOf n).val = n := Nat.min_eq_left h

theorem tbText_length (s : State) : (tbText s).length = s.tlen.val := by simp [tbText]

end Sys2Proof.Machine
end

