-- ==== Sys2Proof/Laws/Ops.lean ====
section
/-! SUPPORT. What the shared operations do, said once: register reads after writes, the bits of STATUS, how a command
completes and how it raises an error. -/

namespace Sys2Proof.Machine

/-! ## Registers -/

theorem readReg_writeReg (i j : Reg) (x : Value) (s : State) :
    readReg (writeReg i x s) j = if i = j then x else readReg s j := by
  simp only [readReg, writeReg, Vector.getElem_set, BitVec.toNat_inj]

@[simp] theorem readReg_writeReg_self (i : Reg) (x : Value) (s : State) : readReg (writeReg i x s) i = x := by
  simp [readReg_writeReg]

theorem readReg_writeReg_ne {i j : Reg} (h : i ≠ j) (x : Value) (s : State) :
    readReg (writeReg i x s) j = readReg s j := by simp [readReg_writeReg, h]

/-- Two states with the same register file read alike. -/
theorem readReg_congr {s t : State} (h : t.v = s.v) (r : Reg) : readReg t r = readReg s r := by
  simp only [readReg, h]

theorem readReg_reset (r : Reg) : readReg State.reset r = Value.zero := by
  simp [readReg, State.reset]

/-- The register file is what its sixteen registers read as. -/
theorem v_ext {s t : State} (h : SameRegs s t) : t.v = s.v := by
  apply Vector.ext
  intro i hi
  have := h (BitVec.ofNat 4 i)
  simpa [readReg, Nat.mod_eq_of_lt (show i < 16 from hi)] using this

/-! ## STATUS -/

@[simp] theorem statusCode_setCode (c : BitVec 3) (w : BitVec 32) : statusCode (setCode c w) = c := by
  apply BitVec.eq_of_getLsbD_eq
  intro i hi
  have : i = 0 ∨ i = 1 ∨ i = 2 := by omega
  rcases this with rfl | rfl | rfl <;> simp [statusCode, setCode]

theorem getLsbD_setCode {c : BitVec 3} {w : BitVec 32} {k : Nat} (hk : 3 ≤ k) :
    (setCode c w).getLsbD k = w.getLsbD k := by
  have hc : c.getLsbD k = false := BitVec.getLsbD_of_ge _ _ hk
  by_cases h : k < 32
  · have hm : (0xFFFFFFF8#32).getLsbD k = true := by
      have : ∀ k : Fin 32, 3 ≤ k.val → (0xFFFFFFF8#32).getLsbD k.val = true := by decide
      exact this ⟨k, h⟩ hk
    simp [setCode, hm, hc, h]
  · simp [BitVec.getLsbD_of_ge _ _ (Nat.not_lt.1 h)]

theorem getLsbD_one_shiftLeft (n k : Nat) (hn : n < 32) : (1#32 <<< n).getLsbD k = decide (k = n) := by
  by_cases hk : k < 32
  · have : ∀ n k : Fin 32, (1#32 <<< n.val).getLsbD k.val = decide (k.val = n.val) := by decide
    exact this ⟨n, hn⟩ ⟨k, hk⟩
  · rw [BitVec.getLsbD_of_ge _ _ (Nat.not_lt.1 hk)]
    simp only [Bool.false_eq, decide_eq_false_iff_not]; omega

theorem ErrorKind.stickyBit_bounds (e : ErrorKind) : 4 ≤ e.stickyBit ∧ e.stickyBit < 8 := by cases e <;> decide

@[simp] theorem statusCode_raisedStatus (e : ErrorKind) (w : BitVec 32) : statusCode (raisedStatus e w) = e.code := by
  rw [← statusCode_setCode e.code w]
  apply BitVec.eq_of_getLsbD_eq
  intro i hi
  have hb := e.stickyBit_bounds
  simp only [statusCode, BitVec.getLsbD_extractLsb', raisedStatus, BitVec.getLsbD_or,
    getLsbD_one_shiftLeft _ _ (by omega : e.stickyBit < 32), Nat.zero_add, show i ≠ e.stickyBit by omega,
    decide_false, Bool.or_false]

theorem getLsbD_raisedStatus {e : ErrorKind} {w : BitVec 32} {k : Nat} (hk : 3 ≤ k) :
    (raisedStatus e w).getLsbD k = (w.getLsbD k || decide (k = e.stickyBit)) := by
  have hb := e.stickyBit_bounds
  rw [raisedStatus, BitVec.getLsbD_or, getLsbD_setCode hk, getLsbD_one_shiftLeft _ _ (by omega)]

/-- The host's write clears exactly the sticky bits it writes with 1. -/
theorem getLsbD_ackStatus (w st : BitVec 32) (k : Nat) :
    (ackStatus w st).getLsbD k = (st.getLsbD k && !(decide (4 ≤ k ∧ k ≤ 7) && w.getLsbD k)) := by
  by_cases h : k < 32
  · have hm : (0x000000F0 : BitVec 32).getLsbD k = decide (4 ≤ k ∧ k ≤ 7) := by
      have : ∀ k : Fin 32, (0x000000F0 : BitVec 32).getLsbD k.val = decide (4 ≤ k.val ∧ k.val ≤ 7) := by decide
      exact this ⟨k, h⟩
    simp only [ackStatus, BitVec.getLsbD_and, BitVec.getLsbD_not, hm, h, decide_true, Bool.true_and]
    rw [Bool.and_comm (w.getLsbD k)]
  · simp [BitVec.getLsbD_of_ge _ _ (Nat.not_lt.1 h)]

/-! ## A legal STATUS -/

/-- A STATUS is legal exactly when bit 3 and bits 8 and up are 0 and CODE is at most 4. -/
theorem statusLegal_iff (w : BitVec 32) :
    StatusLegal w ↔ (∀ k, (k = 3 ∨ 8 ≤ k) → w.getLsbD k = false) ∧ (statusCode w).toNat ≤ 4 := by
  have hm : ∀ k : Fin 32, (0xFFFFFF08 : BitVec 32).getLsbD k.val = decide (k.val = 3 ∨ 8 ≤ k.val) := by decide
  refine and_congr_left fun _ => ⟨fun h k hk => ?_, fun h => ?_⟩
  · by_cases hl : k < 32
    · have h1 : (0xFFFFFF08 : BitVec 32).getLsbD k = true := (hm ⟨k, hl⟩).trans (decide_eq_true hk)
      have h2 := congrArg (BitVec.getLsbD · k) h
      simp only [BitVec.getLsbD_and, h1, Bool.and_true] at h2
      simpa using h2
    · exact BitVec.getLsbD_of_ge _ _ (Nat.not_lt.1 hl)
  · apply BitVec.eq_of_getLsbD_eq
    intro k hk
    by_cases hr : k = 3 ∨ 8 ≤ k
    · simp [h k hr]
    · have h0 : (0xFFFFFF08 : BitVec 32).getLsbD k = false := by simpa [hr] using hm ⟨k, hk⟩
      rw [BitVec.getLsbD_and, h0, Bool.and_false]; simp

theorem StatusLegal.setCode {w : BitVec 32} {c : BitVec 3} (h : StatusLegal w) (hc : c.toNat ≤ 4) :
    StatusLegal (setCode c w) := by
  rw [statusLegal_iff] at *
  exact ⟨fun k hk => by rw [getLsbD_setCode (by omega)]; exact h.1 k hk, by simpa using hc⟩

theorem StatusLegal.raisedStatus {w : BitVec 32} (h : StatusLegal w) (e : ErrorKind) :
    StatusLegal (raisedStatus e w) := by
  rw [statusLegal_iff] at *
  have hb := e.stickyBit_bounds
  refine ⟨fun k hk => ?_, by rw [statusCode_raisedStatus]; cases e <;> decide⟩
  rw [getLsbD_raisedStatus (by omega), h.1 k hk]
  simp only [Bool.false_or, decide_eq_false_iff_not]; omega

theorem StatusLegal.ackStatus {w : BitVec 32} (h : StatusLegal w) (x : BitVec 32) : StatusLegal (ackStatus x w) := by
  have hcode : statusCode (Machine.ackStatus x w) = statusCode w := by
    apply BitVec.eq_of_getLsbD_eq
    intro i hi
    simp only [statusCode, BitVec.getLsbD_extractLsb', getLsbD_ackStatus]
    simp [show ¬ 4 ≤ i by omega]
  rw [statusLegal_iff] at *
  refine ⟨fun k hk => by simp [getLsbD_ackStatus, h.1 k hk], by rw [hcode]; exact h.2⟩

/-! ## How a command ends -/

/-- What `complete` leaves of the status registers. -/
theorem cleanStatus_complete (s : State) : CleanStatus s { s with status := setCode 0 s.status } :=
  ⟨by simp, fun _ hk => getLsbD_setCode hk, rfl, rfl⟩

/-- A command that ends in `finish` completes, and its whole effect is the one register write. -/
theorem finish_wrote (rd : Reg) (x : Value) (s : State) : ∃ t, finish rd x s = .next t ∧ Wrote s t rd x := by
  refine ⟨_, rfl, ?_⟩
  constructor
  · exact readReg_writeReg_self rd x s
  · exact fun r h => readReg_writeReg_ne (Ne.symm h) x s
  · exact ⟨by simp, fun _ hk => getLsbD_setCode hk, rfl, rfl⟩
  · exact ⟨rfl, fun _ => rfl⟩
  · exact ⟨rfl, rfl, rfl⟩

/-- A command that ends in `finish2` completes, and its whole effect is the two register writes. -/
theorem finish2_wrote {rd rd2 : Reg} (h : rd ≠ rd2) (x x2 : Value) (s : State) :
    ∃ t, finish2 rd x rd2 x2 s = .next t ∧ Wrote2 s t rd x rd2 x2 := by
  refine ⟨_, rfl, ?_⟩
  constructor
  · exact (readReg_writeReg_ne (Ne.symm h) x2 _).trans (readReg_writeReg_self rd x s)
  · exact readReg_writeReg_self rd2 x2 _
  · exact fun r h1 h2 => (readReg_writeReg_ne (Ne.symm h2) x2 _).trans (readReg_writeReg_ne (Ne.symm h1) x s)
  · exact ⟨by simp, fun _ hk => getLsbD_setCode hk, rfl, rfl⟩
  · exact ⟨rfl, fun _ => rfl⟩
  · exact ⟨rfl, rfl, rfl⟩

/-- Putting a text of at most 256 bytes and completing: its whole effect. -/
theorem complete_tbPutText_wrote {bs : List Byte} (h : bs.length ≤ 256) (s : State) :
    ∃ t, complete (tbPutText bs s) = .next t ∧ WroteText s t bs := by
  refine ⟨_, rfl, ?_⟩
  constructor
  · exact fun _ => rfl
  · exact fun k hk => (tbRead_tbPutText s bs k).trans (dif_pos hk)
  · exact fun k hk => (tbRead_tbPutText s bs k).trans (dif_neg (by omega))
  · exact tlenOf_val h
  · exact ⟨by simp, fun _ hk => getLsbD_setCode hk, rfl, rfl⟩
  · exact ⟨rfl, rfl, rfl⟩

/-- Raising an error: its whole effect is the record of it. -/
theorem raiseError_recorded (e : ErrorKind) (c : CmdWord) (idx : BitVec 8) (s : State) :
    ∃ t, raiseError e c idx s = .next t ∧ Recorded s t e c idx := by
  refine ⟨_, rfl, ?_⟩
  constructor
  · exact statusCode_raisedStatus e s.status
  · have hb := e.stickyBit_bounds
    show (raisedStatus e s.status).getLsbD e.stickyBit = true
    rw [getLsbD_raisedStatus (by omega)]; simp
  · intro k hk hne
    show (raisedStatus e s.status).getLsbD k = _
    rw [getLsbD_raisedStatus hk]; simp [hne]
  · rfl
  · rfl
  · exact fun _ => rfl
  · exact ⟨rfl, fun _ => rfl⟩
  · exact ⟨rfl, rfl, rfl⟩

end Sys2Proof.Machine
end

