-- ==== Sys2Proof/Laws/Exec.lean ====
section
/-! SUPPORT. What a command can do, said once: `exec` ends in one register write, in two, in a text, or in an error of
its own word. -/

namespace Sys2Proof.Machine

theorem formatDigits_length (base : BitVec 8) (k : Nat) (v : Value) : (formatDigits base k v).length ≤ k := by
  induction k generalizing v with
  | zero => simp [formatDigits]
  | succ k ih =>
    rw [formatDigits]
    split
    · simp
    · simpa using ih _

/-- A text of FORMAT has at most 255 characters (R276). -/
theorem formatText_length_le (v : Value) (base mind : BitVec 8) : (formatText v base mind).length ≤ 255 := by
  have h1 := formatDigits_length base 128 v
  have h2 := mind.isLt
  simp only [formatText, Config.formatZeroEmpty, if_true, List.length_append, List.length_replicate,
    List.length_reverse]
  omega

/-- How a command can end. -/
inductive Ending (i : Instr) (s : State) : Result → Prop where
  | one (rd : Reg) (x : Value) : Ending i s (finish rd x s)
  | two (rd rd2 : Reg) (x x2 : Value) (h : rd ≠ rd2) : Ending i s (finish2 rd x rd2 x2 s)
  | text (bs : List Byte) (h : bs.length ≤ 255) : Ending i s (complete (tbPutText bs s))
  | error (e : ErrorKind) (idx : BitVec 8) : Ending i s (raiseError e (encode i) idx s)

theorem Ending.withRadix {i : Instr} {s : State} {base : BitVec 8} {r : Result} (h : Ending i s r) :
    Ending i s (withRadix (encode i) base s r) := by
  unfold Machine.withRadix; split
  · exact h
  · exact .error _ _

theorem Ending.withDivisor {i : Instr} {s : State} {d : Value} {r : Result} (h : Ending i s r) :
    Ending i s (withDivisor (encode i) d s r) := by
  unfold Machine.withDivisor; split
  · exact .error _ _
  · exact h

/-- Every command ends in one of the four ways. -/
theorem exec_ending (i : Instr) (s : State) : Ending i s (exec i s) := by
  cases i with
  | divmod rd rd2 rs1 rs2 =>
    simp only [exec, execDivmod]
    split
    · exact .error _ _
    · exact (Ending.two _ _ _ _ ‹_›).withDivisor
  | div rd rs1 rs2 => exact (Ending.one _ _).withDivisor
  | rem rd rs1 rs2 => exact (Ending.one _ _).withDivisor
  | dacc rd rs1 base aux =>
    refine Ending.withRadix ?_
    split
    · exact .error _ _
    · exact .one _ _
  | ddiv rd rd2 rs1 base =>
    simp only [exec, execDdiv]
    split
    · exact .error _ _
    · exact (Ending.two _ _ _ _ ‹_›).withRadix
  | parse rd base =>
    refine Ending.withRadix ?_
    split
    · exact .error _ _
    · split
      · exact .error _ _
      · exact .one _ _
  | format rs1 base mind => exact (Ending.text _ (formatText_length_le _ _ _)).withRadix
  | _ => exact .one _ _

/-- A command either completes with one of the three effects or records an error of its own word; it never stops. -/
theorem exec_cases (i : Instr) (s : State) :
    ∃ t, exec i s = .next t ∧
      ((∃ rd x, Wrote s t rd x) ∨ (∃ rd x rd2 x2, rd ≠ rd2 ∧ Wrote2 s t rd x rd2 x2) ∨
        (∃ bs, bs.length ≤ 255 ∧ WroteText s t bs) ∨ (∃ e idx, Recorded s t e (encode i) idx)) := by
  have h := exec_ending i s
  revert h
  generalize exec i s = r
  rintro (⟨rd, x⟩ | ⟨rd, rd2, x, x2, hne⟩ | ⟨bs, hl⟩ | ⟨e, idx⟩)
  · obtain ⟨t, h1, h2⟩ := finish_wrote rd x s
    exact ⟨t, h1, .inl ⟨rd, x, h2⟩⟩
  · obtain ⟨t, h1, h2⟩ := finish2_wrote hne x x2 s
    exact ⟨t, h1, .inr (.inl ⟨rd, x, rd2, x2, hne, h2⟩)⟩
  · obtain ⟨t, h1, h2⟩ := complete_tbPutText_wrote (by omega : bs.length ≤ 256) s
    exact ⟨t, h1, .inr (.inr (.inl ⟨bs, hl, h2⟩))⟩
  · obtain ⟨t, h1, h2⟩ := raiseError_recorded e (encode i) idx s
    exact ⟨t, h1, .inr (.inr (.inr ⟨e, idx, h2⟩))⟩

/-! ## The invariant under one ending -/

theorem Ending.inv {i : Instr} {s t : State} (h : Ending i s (.next t)) (hi : s.Inv) : t.Inv := by
  generalize hr : (Host.Outcome.next t : Result) = r at h
  cases h with
  | one rd x => cases hr; exact ⟨hi.1.setCode (by decide), hi.2⟩
  | two rd rd2 x x2 h => cases hr; exact ⟨hi.1.setCode (by decide), hi.2⟩
  | text bs h => cases hr; exact ⟨hi.1.setCode (by decide), Memory.wf_writeFrom (by omega) hi.2⟩
  | error e idx => cases hr; exact ⟨hi.1.raisedStatus e, hi.2⟩

end Sys2Proof.Machine
end

