-- ==== Sys2Proof/Laws/PerInstr.lean ====
section
/-! SUPPORT. Family `EncodedFields`, one lemma per constructor: the encoded word of a command selects the command's row
of the opcode map (30_encoding.md R105), has no must-be-zero bit set (R116), and its fields make the command again. -/

namespace Sys2Proof.Laws.EncodedFields

/-- What is said of each command. -/
def Statement (i : Instr) : Prop :=
  ∃ r, rowOf (fOp (encode i)) = some r ∧ encode i &&& mustBeZero r.format = 0 ∧ r.build (encode i) = i

theorem mov (rd rs1 : Reg) : Statement (.mov rd rs1) := by
  obtain ⟨h0, h1, h2, h3⟩ := fields_encR2 0x01 rd rs1
  refine ⟨_, (congrArg rowOf h0).trans rfl, (mbz_R2 _).2 h3, ?_⟩
  simp only [encode, h1, h2]

theorem li (rd : Reg) (imm16 : BitVec 16) : Statement (.li rd imm16) := by
  obtain ⟨h0, h1, h3, h2⟩ := fields_encU 0x02 rd imm16
  refine ⟨_, (congrArg rowOf h0).trans rfl, (mbz_U _).2 h2, ?_⟩
  simp only [encode, h1, h3]

theorem pair (rd rs1 rs2 : Reg) : Statement (.pair rd rs1 rs2) := by
  obtain ⟨h0, h1, h2, h3, h4⟩ := fields_encR 0x03 rd rs1 rs2
  refine ⟨_, (congrArg rowOf h0).trans rfl, (mbz_R _).2 h4, ?_⟩
  simp only [encode, h1, h2, h3]

theorem gethi (rd rs1 : Reg) : Statement (.gethi rd rs1) := by
  obtain ⟨h0, h1, h2, h3⟩ := fields_encR2 0x04 rd rs1
  refine ⟨_, (congrArg rowOf h0).trans rfl, (mbz_R2 _).2 h3, ?_⟩
  simp only [encode, h1, h2]

theorem cnz (rd rs1 : Reg) : Statement (.cnz rd rs1) := by
  obtain ⟨h0, h1, h2, h3⟩ := fields_encR2 0x05 rd rs1
  refine ⟨_, (congrArg rowOf h0).trans rfl, (mbz_R2 _).2 h3, ?_⟩
  simp only [encode, h1, h2]

theorem zext8 (rd rs1 : Reg) : Statement (.zext8 rd rs1) := by
  obtain ⟨h0, h1, h2, h3⟩ := fields_encR2 0x08 rd rs1
  refine ⟨_, (congrArg rowOf h0).trans rfl, (mbz_R2 _).2 h3, ?_⟩
  simp only [encode, h1, h2]

theorem zext16 (rd rs1 : Reg) : Statement (.zext16 rd rs1) := by
  obtain ⟨h0, h1, h2, h3⟩ := fields_encR2 0x09 rd rs1
  refine ⟨_, (congrArg rowOf h0).trans rfl, (mbz_R2 _).2 h3, ?_⟩
  simp only [encode, h1, h2]

theorem zext32 (rd rs1 : Reg) : Statement (.zext32 rd rs1) := by
  obtain ⟨h0, h1, h2, h3⟩ := fields_encR2 0x0A rd rs1
  refine ⟨_, (congrArg rowOf h0).trans rfl, (mbz_R2 _).2 h3, ?_⟩
  simp only [encode, h1, h2]

theorem zext64 (rd rs1 : Reg) : Statement (.zext64 rd rs1) := by
  obtain ⟨h0, h1, h2, h3⟩ := fields_encR2 0x0B rd rs1
  refine ⟨_, (congrArg rowOf h0).trans rfl, (mbz_R2 _).2 h3, ?_⟩
  simp only [encode, h1, h2]

theorem sext8 (rd rs1 : Reg) : Statement (.sext8 rd rs1) := by
  obtain ⟨h0, h1, h2, h3⟩ := fields_encR2 0x0C rd rs1
  refine ⟨_, (congrArg rowOf h0).trans rfl, (mbz_R2 _).2 h3, ?_⟩
  simp only [encode, h1, h2]

theorem sext16 (rd rs1 : Reg) : Statement (.sext16 rd rs1) := by
  obtain ⟨h0, h1, h2, h3⟩ := fields_encR2 0x0D rd rs1
  refine ⟨_, (congrArg rowOf h0).trans rfl, (mbz_R2 _).2 h3, ?_⟩
  simp only [encode, h1, h2]

theorem sext32 (rd rs1 : Reg) : Statement (.sext32 rd rs1) := by
  obtain ⟨h0, h1, h2, h3⟩ := fields_encR2 0x0E rd rs1
  refine ⟨_, (congrArg rowOf h0).trans rfl, (mbz_R2 _).2 h3, ?_⟩
  simp only [encode, h1, h2]

theorem sext64 (rd rs1 : Reg) : Statement (.sext64 rd rs1) := by
  obtain ⟨h0, h1, h2, h3⟩ := fields_encR2 0x0F rd rs1
  refine ⟨_, (congrArg rowOf h0).trans rfl, (mbz_R2 _).2 h3, ?_⟩
  simp only [encode, h1, h2]

theorem not (rd rs1 : Reg) : Statement (.not rd rs1) := by
  obtain ⟨h0, h1, h2, h3⟩ := fields_encR2 0x10 rd rs1
  refine ⟨_, (congrArg rowOf h0).trans rfl, (mbz_R2 _).2 h3, ?_⟩
  simp only [encode, h1, h2]

theorem and (rd rs1 rs2 : Reg) : Statement (.and rd rs1 rs2) := by
  obtain ⟨h0, h1, h2, h3, h4⟩ := fields_encR 0x11 rd rs1 rs2
  refine ⟨_, (congrArg rowOf h0).trans rfl, (mbz_R _).2 h4, ?_⟩
  simp only [encode, h1, h2, h3]

theorem or (rd rs1 rs2 : Reg) : Statement (.or rd rs1 rs2) := by
  obtain ⟨h0, h1, h2, h3, h4⟩ := fields_encR 0x12 rd rs1 rs2
  refine ⟨_, (congrArg rowOf h0).trans rfl, (mbz_R _).2 h4, ?_⟩
  simp only [encode, h1, h2, h3]

theorem xor (rd rs1 rs2 : Reg) : Statement (.xor rd rs1 rs2) := by
  obtain ⟨h0, h1, h2, h3, h4⟩ := fields_encR 0x13 rd rs1 rs2
  refine ⟨_, (congrArg rowOf h0).trans rfl, (mbz_R _).2 h4, ?_⟩
  simp only [encode, h1, h2, h3]

theorem shli (rd rs1 : Reg) (imm8 : BitVec 8) : Statement (.shli rd rs1 imm8) := by
  obtain ⟨h0, h1, h2, h4, h3⟩ := fields_encI 0x14 rd rs1 imm8
  refine ⟨_, (congrArg rowOf h0).trans rfl, (mbz_I _).2 h3, ?_⟩
  simp only [encode, h1, h2, h4]

theorem shri (rd rs1 : Reg) (imm8 : BitVec 8) : Statement (.shri rd rs1 imm8) := by
  obtain ⟨h0, h1, h2, h4, h3⟩ := fields_encI 0x15 rd rs1 imm8
  refine ⟨_, (congrArg rowOf h0).trans rfl, (mbz_I _).2 h3, ?_⟩
  simp only [encode, h1, h2, h4]

theorem shl (rd rs1 rs2 : Reg) : Statement (.shl rd rs1 rs2) := by
  obtain ⟨h0, h1, h2, h3, h4⟩ := fields_encR 0x16 rd rs1 rs2
  refine ⟨_, (congrArg rowOf h0).trans rfl, (mbz_R _).2 h4, ?_⟩
  simp only [encode, h1, h2, h3]

theorem shr (rd rs1 rs2 : Reg) : Statement (.shr rd rs1 rs2) := by
  obtain ⟨h0, h1, h2, h3, h4⟩ := fields_encR 0x17 rd rs1 rs2
  refine ⟨_, (congrArg rowOf h0).trans rfl, (mbz_R _).2 h4, ?_⟩
  simp only [encode, h1, h2, h3]

theorem roli (rd rs1 : Reg) (imm8 : BitVec 8) : Statement (.roli rd rs1 imm8) := by
  obtain ⟨h0, h1, h2, h4, h3⟩ := fields_encI 0x18 rd rs1 imm8
  refine ⟨_, (congrArg rowOf h0).trans rfl, (mbz_I _).2 h3, ?_⟩
  simp only [encode, h1, h2, h4]

theorem rori (rd rs1 : Reg) (imm8 : BitVec 8) : Statement (.rori rd rs1 imm8) := by
  obtain ⟨h0, h1, h2, h4, h3⟩ := fields_encI 0x19 rd rs1 imm8
  refine ⟨_, (congrArg rowOf h0).trans rfl, (mbz_I _).2 h3, ?_⟩
  simp only [encode, h1, h2, h4]

theorem rol (rd rs1 rs2 : Reg) : Statement (.rol rd rs1 rs2) := by
  obtain ⟨h0, h1, h2, h3, h4⟩ := fields_encR 0x1A rd rs1 rs2
  refine ⟨_, (congrArg rowOf h0).trans rfl, (mbz_R _).2 h4, ?_⟩
  simp only [encode, h1, h2, h3]

theorem ror (rd rs1 rs2 : Reg) : Statement (.ror rd rs1 rs2) := by
  obtain ⟨h0, h1, h2, h3, h4⟩ := fields_encR 0x1B rd rs1 rs2
  refine ⟨_, (congrArg rowOf h0).trans rfl, (mbz_R _).2 h4, ?_⟩
  simp only [encode, h1, h2, h3]

theorem add (rd rs1 rs2 : Reg) : Statement (.add rd rs1 rs2) := by
  obtain ⟨h0, h1, h2, h3, h4⟩ := fields_encR 0x20 rd rs1 rs2
  refine ⟨_, (congrArg rowOf h0).trans rfl, (mbz_R _).2 h4, ?_⟩
  simp only [encode, h1, h2, h3]

theorem sub (rd rs1 rs2 : Reg) : Statement (.sub rd rs1 rs2) := by
  obtain ⟨h0, h1, h2, h3, h4⟩ := fields_encR 0x21 rd rs1 rs2
  refine ⟨_, (congrArg rowOf h0).trans rfl, (mbz_R _).2 h4, ?_⟩
  simp only [encode, h1, h2, h3]

theorem inc (rd rs1 : Reg) : Statement (.inc rd rs1) := by
  obtain ⟨h0, h1, h2, h3⟩ := fields_encR2 0x22 rd rs1
  refine ⟨_, (congrArg rowOf h0).trans rfl, (mbz_R2 _).2 h3, ?_⟩
  simp only [encode, h1, h2]

theorem dec (rd rs1 : Reg) : Statement (.dec rd rs1) := by
  obtain ⟨h0, h1, h2, h3⟩ := fields_encR2 0x23 rd rs1
  refine ⟨_, (congrArg rowOf h0).trans rfl, (mbz_R2 _).2 h3, ?_⟩
  simp only [encode, h1, h2]

theorem ceq (rd rs1 rs2 : Reg) : Statement (.ceq rd rs1 rs2) := by
  obtain ⟨h0, h1, h2, h3, h4⟩ := fields_encR 0x28 rd rs1 rs2
  refine ⟨_, (congrArg rowOf h0).trans rfl, (mbz_R _).2 h4, ?_⟩
  simp only [encode, h1, h2, h3]

theorem cne (rd rs1 rs2 : Reg) : Statement (.cne rd rs1 rs2) := by
  obtain ⟨h0, h1, h2, h3, h4⟩ := fields_encR 0x29 rd rs1 rs2
  refine ⟨_, (congrArg rowOf h0).trans rfl, (mbz_R _).2 h4, ?_⟩
  simp only [encode, h1, h2, h3]

theorem clt (rd rs1 rs2 : Reg) : Statement (.clt rd rs1 rs2) := by
  obtain ⟨h0, h1, h2, h3, h4⟩ := fields_encR 0x2A rd rs1 rs2
  refine ⟨_, (congrArg rowOf h0).trans rfl, (mbz_R _).2 h4, ?_⟩
  simp only [encode, h1, h2, h3]

theorem cle (rd rs1 rs2 : Reg) : Statement (.cle rd rs1 rs2) := by
  obtain ⟨h0, h1, h2, h3, h4⟩ := fields_encR 0x2B rd rs1 rs2
  refine ⟨_, (congrArg rowOf h0).trans rfl, (mbz_R _).2 h4, ?_⟩
  simp only [encode, h1, h2, h3]

theorem cgt (rd rs1 rs2 : Reg) : Statement (.cgt rd rs1 rs2) := by
  obtain ⟨h0, h1, h2, h3, h4⟩ := fields_encR 0x2C rd rs1 rs2
  refine ⟨_, (congrArg rowOf h0).trans rfl, (mbz_R _).2 h4, ?_⟩
  simp only [encode, h1, h2, h3]

theorem cge (rd rs1 rs2 : Reg) : Statement (.cge rd rs1 rs2) := by
  obtain ⟨h0, h1, h2, h3, h4⟩ := fields_encR 0x2D rd rs1 rs2
  refine ⟨_, (congrArg rowOf h0).trans rfl, (mbz_R _).2 h4, ?_⟩
  simp only [encode, h1, h2, h3]

theorem mul (rd rs1 rs2 : Reg) : Statement (.mul rd rs1 rs2) := by
  obtain ⟨h0, h1, h2, h3, h4⟩ := fields_encR 0x30 rd rs1 rs2
  refine ⟨_, (congrArg rowOf h0).trans rfl, (mbz_R _).2 h4, ?_⟩
  simp only [encode, h1, h2, h3]

theorem divmod (rd rd2 rs1 rs2 : Reg) : Statement (.divmod rd rd2 rs1 rs2) := by
  obtain ⟨h0, h1, h2, h3, h4, h5⟩ := fields_encR4 0x38 rd rd2 rs1 rs2
  refine ⟨_, (congrArg rowOf h0).trans rfl, (mbz_R4 _).2 h5, ?_⟩
  simp only [encode, h1, h2, h3, h4]

theorem div (rd rs1 rs2 : Reg) : Statement (.div rd rs1 rs2) := by
  obtain ⟨h0, h1, h2, h3, h4⟩ := fields_encR 0x39 rd rs1 rs2
  refine ⟨_, (congrArg rowOf h0).trans rfl, (mbz_R _).2 h4, ?_⟩
  simp only [encode, h1, h2, h3]

theorem rem (rd rs1 rs2 : Reg) : Statement (.rem rd rs1 rs2) := by
  obtain ⟨h0, h1, h2, h3, h4⟩ := fields_encR 0x3A rd rs1 rs2
  refine ⟨_, (congrArg rowOf h0).trans rfl, (mbz_R _).2 h4, ?_⟩
  simp only [encode, h1, h2, h3]

theorem dacc (rd rs1 : Reg) (base aux : BitVec 8) : Statement (.dacc rd rs1 base aux) := by
  obtain ⟨h0, h1, h2, h3, h4⟩ := fields_encXA 0x40 rd rs1 base aux
  refine ⟨_, (congrArg rowOf h0).trans rfl, (mbz_XA _).2 trivial, ?_⟩
  simp only [encode, h1, h2, h3, h4]

theorem ddiv (rd rd2 rs1 : Reg) (base : BitVec 8) : Statement (.ddiv rd rd2 rs1 base) := by
  obtain ⟨h0, h1, h2, h3, h5, h4⟩ := fields_encXD 0x41 rd rd2 rs1 base
  refine ⟨_, (congrArg rowOf h0).trans rfl, (mbz_XD _).2 h4, ?_⟩
  simp only [encode, h1, h2, h3, h5]

theorem parse (rd : Reg) (base : BitVec 8) : Statement (.parse rd base) := by
  obtain ⟨h0, h1, h3, h2, h4⟩ := fields_encXP 0x42 rd base
  refine ⟨_, (congrArg rowOf h0).trans rfl, (mbz_XP _).2 ⟨h2, h4⟩, ?_⟩
  simp only [encode, h1, h3]

theorem format (rs1 : Reg) (base mind : BitVec 8) : Statement (.format rs1 base mind) := by
  obtain ⟨h0, h2, h3, h4, h1⟩ := fields_encXF 0x43 rs1 base mind
  refine ⟨_, (congrArg rowOf h0).trans rfl, (mbz_XF _).2 h1, ?_⟩
  simp only [encode, h2, h3, h4]

end Sys2Proof.Laws.EncodedFields
end

