-- ==== Sys2Proof/Laws/Step.lean ====
section
/-! SUPPORT. What one step does: nothing when nothing waits, else the oldest host operation. -/

namespace Sys2Proof.Machine

theorem step_idle {s : State} (h : s.pending = []) : step s = .next s := by simp [step, advance, h]

theorem step_pending {s : State} {op : HostOp} {rest : List HostOp} (h : s.pending = op :: rest) :
    step s = performHostOp op (takeOp rest s) := by simp [step, advance, h]

/-- A step on a state whose host is about to perform `op` performs it, with the earlier list waiting again. -/
theorem step_withOp (op : HostOp) (s : State) : step (withOp op s) = performHostOp op { s with reply := none } := rfl

theorem withFetchWord_eq (s : State) (nbits w : Nat) :
    s.withFetchWord nbits w = withOp (.issue (BitVec.ofNat 32 w)) s := rfl

/-- Issuing a legal word is `exec` of what it decodes to. -/
theorem issue_ok {c : CmdWord} {i : Instr} (h : decode c = .ok i) (s : State) : issue c s = exec i s := by
  simp [issue, h]

/-- Issuing any other word records `IllegalCommand`. -/
theorem issue_error {c : CmdWord} {e : DecodeError} (h : decode c = .error e) (s : State) :
    issue c s = raiseError .illegalCommand c 0 s := by
  simp [issue, h]

/-- What a host operation can answer: a next state, by an issued command's ending or by an update that keeps the
invariant. -/
theorem performHostOp_next (op : HostOp) (s : State) :
    ∃ t, performHostOp op s = .next t ∧ (s.Inv → t.Inv) := by
  cases op with
  | reset =>
    refine ⟨_, rfl, fun _ => ⟨(statusLegal_iff _).2 ⟨fun k _ => ?_, Nat.zero_le 4⟩, Memory.wf_nil⟩⟩
    show (0 : BitVec 32).getLsbD k = false
    simp
  | writeReg i hi lo => exact ⟨_, rfl, fun h => h⟩
  | writeTb k b => exact ⟨_, rfl, fun h => ⟨h.1, Memory.wf_write k.isLt h.2⟩⟩
  | writeTlen n => exact ⟨_, rfl, fun h => h⟩
  | writeStatus w => exact ⟨_, rfl, fun h => ⟨h.1.ackStatus w, h.2⟩⟩
  | readReg i => exact ⟨_, rfl, fun h => h⟩
  | readTb k => exact ⟨_, rfl, fun h => h⟩
  | readTlen => exact ⟨_, rfl, fun h => h⟩
  | readStatus => exact ⟨_, rfl, fun h => h⟩
  | readFaultcmd => exact ⟨_, rfl, fun h => h⟩
  | readErridx => exact ⟨_, rfl, fun h => h⟩
  | issue c =>
    simp only [performHostOp]
    cases hd : decode c with
    | ok i =>
      rw [issue_ok hd]
      obtain ⟨t, ht, -⟩ := exec_cases i s
      exact ⟨t, ht, (ht ▸ exec_ending i s : Ending i s (.next t)).inv⟩
    | error e =>
      rw [issue_error hd]
      exact ⟨_, rfl, fun h => ⟨h.1.raisedStatus _, h.2⟩⟩

end Sys2Proof.Machine
end

