-- ==== Sys2Proof/Laws/Word.lean ====
section
/-! SUPPORT. The small lemmas of values: a value is its number, and its number is below 2^128. -/

namespace Sys2Proof.Value

theorem ext_iff' {a b : Value} : a = b ↔ a.high = b.high ∧ a.low = b.low := by
  cases a; cases b; simp

theorem val_lt (v : Value) : v.val < 2 ^ 128 := by
  have h := v.high.isLt; have l := v.low.isLt
  unfold val; omega

@[simp] theorem high_ofNat (n : Nat) : (ofNat n).high = BitVec.ofNat 64 (n / 2 ^ 64) := rfl
@[simp] theorem low_ofNat (n : Nat) : (ofNat n).low = BitVec.ofNat 64 n := rfl
@[simp] theorem high_zero : zero.high = 0 := rfl
@[simp] theorem low_zero : zero.low = 0 := rfl
@[simp] theorem high_one : one.high = 0 := rfl
@[simp] theorem low_one : one.low = 1 := rfl
@[simp] theorem high_ofLow (l : Limb) : (ofLow l).high = 0 := rfl
@[simp] theorem low_ofLow (l : Limb) : (ofLow l).low = l := rfl
@[simp] theorem val_zero : zero.val = 0 := rfl
@[simp] theorem val_one : one.val = 1 := rfl
@[simp] theorem val_ofLow (l : Limb) : (ofLow l).val = l.toNat := by simp [val, ofLow]

theorem val_mk (h l : Limb) : (⟨h, l⟩ : Value).val = h.toNat * 2 ^ 64 + l.toNat := rfl

/-- `val(V(n)) = n mod 2^128`. -/
@[simp] theorem val_ofNat (n : Nat) : (ofNat n).val = n % 2 ^ 128 := by
  simp only [val, ofNat, BitVec.toNat_ofNat]; omega

theorem val_injective {a b : Value} (h : a.val = b.val) : a = b := by
  have ha := a.low.isLt; have hb := b.low.isLt
  rw [ext_iff']
  unfold val at h
  constructor <;> apply BitVec.eq_of_toNat_eq <;> omega

theorem val_inj {a b : Value} : a.val = b.val ↔ a = b := ⟨val_injective, fun h => h ▸ rfl⟩

/-- A value is `V` of any number that agrees with its own modulo 2^128. -/
theorem eq_ofNat {a : Value} {n : Nat} (h : a.val = n % 2 ^ 128) : a = ofNat n := val_injective (by simpa using h)

@[simp] theorem ofNat_val (v : Value) : ofNat v.val = v := (eq_ofNat (Nat.mod_eq_of_lt v.val_lt).symm).symm

theorem val_eq_zero {v : Value} : v.val = 0 ↔ v = zero := by rw [← val_zero, val_inj]

/-- `V` depends on its number modulo 2^128 only. -/
theorem ofNat_mod (n : Nat) : ofNat (n % 2 ^ 128) = ofNat n := val_injective (by simp)

theorem toNat_bits (v : Value) : v.bits.toNat = v.val := by
  have := v.low.isLt
  rw [bits, BitVec.toNat_append, ← Nat.shiftLeft_add_eq_or_of_lt this, Nat.shiftLeft_eq, val]

theorem val_ofBits (b : BitVec 128) : (ofBits b).val = b.toNat := by
  have := b.isLt
  simp only [ofBits, val, BitVec.extractLsb'_toNat, Nat.shiftRight_eq_div_pow]; omega

end Sys2Proof.Value
end

