-- ==== Sys2Proof/Tests/Slice0.lean ====
section
/-! SUPPORT. Tests: the WellFormed smoke, decoding of words written out from the spec's formats, one-step vectors of
95_test_vectors.md, the host operations, and for every statement with hypotheses a state that meets them. Every expected
result is the spec's. -/

namespace Sys2Proof.Tests

set_option Elab.async false

open Sys2Proof Sys2Proof.Machine

/-! ## Small states and what one step leaves -/

/-- Reset, with the listed registers written. -/
def regs (l : List (Reg × Value)) : State := l.foldl (fun s p => writeReg p.1 p.2 s) State.reset

/-- ASCII bytes. -/
def bytes (cs : List Char) : List Byte := cs.map fun c => BitVec.ofNat 8 c.toNat

/-- The text in the buffer, its length in TLEN. -/
def text (cs : List Char) (s : State) : State := tbPutText (bytes cs) s

/-- Reset, with one byte repeated as the text. -/
def filled (n : Nat) (b : Byte) : State := tbPutText (List.replicate n b) State.reset

/-- The state after the host issues `w`. -/
def after (w : Nat) (s : State) : Option State :=
  match step (s.withFetchWord 32 w) with
  | .next t => some t
  | _       => none

/-- The register after `w`, where it completed. -/
def valueAfter (w : Nat) (s : State) (r : Reg) : Option Value :=
  (after w s).bind fun t => if statusCode t.status = 0 then some (readReg t r) else none

/-- The text after `w`, where it completed. -/
def textAfter (w : Nat) (s : State) : Option (List Byte) :=
  (after w s).bind fun t => if statusCode t.status = 0 then some (tbText t) else none

/-- CODE, FAULTCMD and ERRIDX after `w`, where it raised an error and left registers and text. -/
def errorAfter (w : Nat) (s : State) : Option (BitVec 3 × BitVec 32 × BitVec 8) :=
  (after w s).bind fun t =>
    if statusCode t.status ≠ 0 ∧ t.v = s.v ∧ t.tb = s.tb ∧ t.tlen = s.tlen then
      some (statusCode t.status, t.faultcmd, t.erridx)
    else none

/-! ## WellFormed: the ill-formed terms are refused -/

theorem test_wf_refuses_divmod_same_destination : (Instr.divmod 6 6 8 9).wf = false := by decide

theorem test_wf_refuses_ddiv_same_destination : (Instr.ddiv 2 2 2 16).wf = false := by decide

theorem test_wf_accepts_different_destinations :
    (Instr.divmod 6 7 8 9).wf = true ∧ (Instr.ddiv 2 3 2 16).wf = true := by decide

/-! ## Decoding: one word per constructor, its bits written out from the formats of R102 (rd = 10, rs1 = 5, rs2 = 12,
rd2 = 3) -/

theorem test_decode_representation :
    Spells 0b00000001101001010000000000000000 (.mov 10 5) ∧
    Spells 0b00000010101000001001011001101001 (.li 10 0x9669) ∧
    Spells 0b00000011101001011100000000000000 (.pair 10 5 12) ∧
    Spells 0b00000100101001010000000000000000 (.gethi 10 5) ∧
    Spells 0b00000101101001010000000000000000 (.cnz 10 5) ∧
    Spells 0b00001000101001010000000000000000 (.zext8 10 5) ∧
    Spells 0b00001001101001010000000000000000 (.zext16 10 5) ∧
    Spells 0b00001010101001010000000000000000 (.zext32 10 5) ∧
    Spells 0b00001011101001010000000000000000 (.zext64 10 5) ∧
    Spells 0b00001100101001010000000000000000 (.sext8 10 5) ∧
    Spells 0b00001101101001010000000000000000 (.sext16 10 5) ∧
    Spells 0b00001110101001010000000000000000 (.sext32 10 5) ∧
    Spells 0b00001111101001010000000000000000 (.sext64 10 5) :=
  ⟨rfl, rfl, rfl, rfl, rfl, rfl, rfl, rfl, rfl, rfl, rfl, rfl, rfl⟩

theorem test_decode_bitwise_and_shift :
    Spells 0b00010000101001010000000000000000 (.not 10 5) ∧
    Spells 0b00010001101001011100000000000000 (.and 10 5 12) ∧
    Spells 0b00010010101001011100000000000000 (.or 10 5 12) ∧
    Spells 0b00010011101001011100000000000000 (.xor 10 5 12) ∧
    Spells 0b00010100101001010000000010010110 (.shli 10 5 150) ∧
    Spells 0b00010101101001010000000010010110 (.shri 10 5 150) ∧
    Spells 0b00010110101001011100000000000000 (.shl 10 5 12) ∧
    Spells 0b00010111101001011100000000000000 (.shr 10 5 12) ∧
    Spells 0b00011000101001010000000010010110 (.roli 10 5 150) ∧
    Spells 0b00011001101001010000000010010110 (.rori 10 5 150) ∧
    Spells 0b00011010101001011100000000000000 (.rol 10 5 12) ∧
    Spells 0b00011011101001011100000000000000 (.ror 10 5 12) :=
  ⟨rfl, rfl, rfl, rfl, rfl, rfl, rfl, rfl, rfl, rfl, rfl, rfl⟩

theorem test_decode_additive_and_ordering :
    Spells 0b00100000101001011100000000000000 (.add 10 5 12) ∧
    Spells 0b00100001101001011100000000000000 (.sub 10 5 12) ∧
    Spells 0b00100010101001010000000000000000 (.inc 10 5) ∧
    Spells 0b00100011101001010000000000000000 (.dec 10 5) ∧
    Spells 0b00101000101001011100000000000000 (.ceq 10 5 12) ∧
    Spells 0b00101001101001011100000000000000 (.cne 10 5 12) ∧
    Spells 0b00101010101001011100000000000000 (.clt 10 5 12) ∧
    Spells 0b00101011101001011100000000000000 (.cle 10 5 12) ∧
    Spells 0b00101100101001011100000000000000 (.cgt 10 5 12) ∧
    Spells 0b00101101101001011100000000000000 (.cge 10 5 12) :=
  ⟨rfl, rfl, rfl, rfl, rfl, rfl, rfl, rfl, rfl, rfl⟩

theorem test_decode_multiply_and_divide :
    Spells 0b00110000101001011100000000000000 (.mul 10 5 12) ∧
    Spells 0b00111000101001011100001100000000 (.divmod 10 3 5 12) ∧
    Spells 0b00111001101001011100000000000000 (.div 10 5 12) ∧
    Spells 0b00111010101001011100000000000000 (.rem 10 5 12) :=
  ⟨rfl, rfl, rfl, rfl⟩

theorem test_decode_text_codec :
    Spells 0b01000000101001010001000001000001 (.dacc 10 5 16 0x41) ∧
    Spells 0b01000001101001010001000000000011 (.ddiv 10 3 5 16) ∧
    Spells 0b01000010101000000001000000000000 (.parse 10 16) ∧
    Spells 0b01000011000001010001000001000001 (.format 5 16 0x41) :=
  ⟨rfl, rfl, rfl, rfl⟩

/-- E1 and E2: an unassigned opcode; the all-ones word (R115). -/
theorem test_decode_rejects_unassigned :
    decode 0x00000000 = .error .unassignedOpcode ∧ decode 0xFF000000 = .error .unassignedOpcode ∧
    decode 0xFFFFFFFF = .error .unassignedOpcode := ⟨rfl, rfl, rfl⟩

/-- E3 to E6 and E9 to E11: a must-be-zero bit of each kind. -/
theorem test_decode_rejects_must_be_zero :
    decode 0x20123001 = .error .mustBeZero ∧ decode 0x01120001 = .error .mustBeZero ∧
    decode 0x14210100 = .error .mustBeZero ∧ decode 0x02412345 = .error .mustBeZero ∧
    decode 0x41221013 = .error .mustBeZero ∧ decode 0x43101020 = .error .mustBeZero ∧
    decode 0x42012400 = .error .mustBeZero := ⟨rfl, rfl, rfl, rfl, rfl, rfl, rfl⟩

/-- E7 and E8: two results for one register. -/
theorem test_decode_rejects_same_destination :
    decode 0x38689600 = .error .sameDestination ∧ decode 0x41221002 = .error .sameDestination := ⟨rfl, rfl⟩

/-- E12 and E13: errors that decode does not find. -/
theorem test_decode_leaves_execution_errors :
    Spells 0x43002501 (.format 0 37 1) ∧ Spells 0x3839A700 (.divmod 3 7 9 10) := ⟨rfl, rfl⟩

/-- The end of the decode vectors: an illegal word sets CODE to 4 and changes no register, byte or length. -/
theorem test_illegal_word_is_recorded :
    errorAfter 0x20123001 (regs [(2, ⟨1, 2⟩)]) = some (4, 0x20123001, 0) := by decide +kernel

/-- The table-word interface reads the same words. -/
theorem test_decode_table_word :
    decodeTableWord 32 0x20123000 = some (.add 1 2 3) ∧ decodeTableWord 32 0 = none := ⟨rfl, rfl⟩

/-- R121, R122, R123: lines and the words they assemble to; an operand that does not fit is refused. -/
theorem test_assemble :
    Asm.assemble "dacc v1, v1, 10, '7'".toList = some [0x40110A37] ∧
    Asm.assemble "li v4, 0x1234".toList = some [0x02401234] ∧
    Asm.assemble "neg v3, v1".toList = some [0x10310000, 0x22330000] ∧
    Asm.assemble "hex v0".toList = some [0x43001020] ∧ Asm.assemble "mov v16, v0".toList = none ∧
    Asm.assemble "shli v1, v1, 256".toList = none := by decide +kernel

/-! ## One step, from the vectors of 95_test_vectors.md L2 (each theorem names its vector) -/

/-- V1: `mov v1, v2`. -/
theorem test_mov :
    valueAfter 0x01120000 (regs [(2, ⟨0xa, 0xb⟩)]) 1 = some ⟨0xa, 0xb⟩ := by decide +kernel

/-- V2: `li v3, 0xFFFF`. -/
theorem test_li :
    valueAfter 0x0230FFFF (regs []) 3 = some ⟨0x0, 0xffff⟩ := by decide +kernel

/-- V4: `pair v3, v1, v2`. -/
theorem test_pair :
    valueAfter 0x03312000 (regs [(1, ⟨0x7, 0x1111⟩), (2, ⟨0x9, 0x2222⟩)]) 3 = some ⟨0x1111, 0x2222⟩ := by decide +kernel

/-- V5: `pair v1, v1, v1`. -/
theorem test_pair_same_register :
    valueAfter 0x03111000 (regs [(1, ⟨0x7, 0x5⟩)]) 1 = some ⟨0x5, 0x5⟩ := by decide +kernel

/-- V6: `gethi v2, v1`. -/
theorem test_gethi :
    valueAfter 0x04210000 (regs [(1, ⟨0x17c6e3c032f890, 0x45ad746684045f15⟩)]) 2 = some ⟨0x0, 0x17c6e3c032f890⟩ := by decide +kernel

/-- V7: `cnz v2, v1`. -/
theorem test_cnz_high_only :
    valueAfter 0x05210000 (regs [(1, ⟨0x1, 0x0⟩)]) 2 = some ⟨0x0, 0x1⟩ := by decide +kernel

/-- V8: `cnz v2, v1`. -/
theorem test_cnz_zero :
    valueAfter 0x05210000 (regs [(1, ⟨0, 0⟩)]) 2 = some ⟨0, 0⟩ := by decide +kernel

/-- V9: `zext8 v2, v1`. -/
theorem test_zext8 :
    valueAfter 0x08210000 (regs [(1, ⟨0x5, 0x123456789abcdef0⟩)]) 2 = some ⟨0x0, 0xf0⟩ := by decide +kernel

/-- V10: `zext16 v2, v1`. -/
theorem test_zext16 :
    valueAfter 0x09210000 (regs [(1, ⟨0x5, 0x12345678⟩)]) 2 = some ⟨0x0, 0x5678⟩ := by decide +kernel

/-- V11: `zext32 v2, v1`. -/
theorem test_zext32 :
    valueAfter 0x0A210000 (regs [(1, ⟨0x5, 0x9abcdef123456789⟩)]) 2 = some ⟨0x0, 0x23456789⟩ := by decide +kernel

/-- V12: `zext64 v2, v1`. -/
theorem test_zext64 :
    valueAfter 0x0B210000 (regs [(1, ⟨0xffffffffffffffff, 0xffffffffffffffff⟩)]) 2 = some ⟨0x0, 0xffffffffffffffff⟩ := by decide +kernel

/-- V13: `sext8 v2, v1`. -/
theorem test_sext8_negative :
    valueAfter 0x0C210000 (regs [(1, ⟨0x3, 0x80⟩)]) 2 = some ⟨0xffffffffffffffff, 0xffffffffffffff80⟩ := by decide +kernel

/-- V14: `sext8 v2, v1`. -/
theorem test_sext8_positive :
    valueAfter 0x0C210000 (regs [(1, ⟨0x3, 0x7f⟩)]) 2 = some ⟨0x0, 0x7f⟩ := by decide +kernel

/-- V15: `sext16 v2, v1`. -/
theorem test_sext16 :
    valueAfter 0x0D210000 (regs [(1, ⟨0x0, 0x8000⟩)]) 2 = some ⟨0xffffffffffffffff, 0xffffffffffff8000⟩ := by decide +kernel

/-- V16: `sext32 v2, v1`. -/
theorem test_sext32_negative :
    valueAfter 0x0E210000 (regs [(1, ⟨0x0, 0x80000000⟩)]) 2 = some ⟨0xffffffffffffffff, 0xffffffff80000000⟩ := by decide +kernel

/-- V17: `sext32 v2, v1`. -/
theorem test_sext32_positive :
    valueAfter 0x0E210000 (regs [(1, ⟨0x0, 0x7fffffff⟩)]) 2 = some ⟨0x0, 0x7fffffff⟩ := by decide +kernel

/-- V18: `sext64 v2, v1`. -/
theorem test_sext64_negative :
    valueAfter 0x0F210000 (regs [(1, ⟨0x0, 0x8000000000000000⟩)]) 2 = some ⟨0xffffffffffffffff, 0x8000000000000000⟩ := by decide +kernel

/-- V19: `sext64 v1, v1`. -/
theorem test_sext64_drops_high :
    valueAfter 0x0F110000 (regs [(1, ⟨0xffff, 0x7fffffffffffffff⟩)]) 1 = some ⟨0x0, 0x7fffffffffffffff⟩ := by decide +kernel

/-- V21: `not v2, v1`. -/
theorem test_not :
    valueAfter 0x10210000 (regs [(1, ⟨0x0, 0xff⟩)]) 2 = some ⟨0xffffffffffffffff, 0xffffffffffffff00⟩ := by decide +kernel

/-- V22: `and v3, v1, v2`. -/
theorem test_and :
    valueAfter 0x11312000 (regs [(1, ⟨0xf0, 0xff⟩), (2, ⟨0x3c, 0xf⟩)]) 3 = some ⟨0x30, 0xf⟩ := by decide +kernel

/-- V23: `or v3, v1, v2`. -/
theorem test_or :
    valueAfter 0x12312000 (regs [(1, ⟨0xf0, 0xff⟩), (2, ⟨0x3c, 0xf⟩)]) 3 = some ⟨0xfc, 0xff⟩ := by decide +kernel

/-- V24: `xor v3, v1, v2`. -/
theorem test_xor :
    valueAfter 0x13312000 (regs [(1, ⟨0xf0, 0xff⟩), (2, ⟨0x3c, 0xf⟩)]) 3 = some ⟨0xcc, 0xf0⟩ := by decide +kernel

/-- V28: `shli v2, v1, 63`. -/
theorem test_shli_63 :
    valueAfter 0x1421003F (regs [(1, ⟨0x123456789abcdef, 0xfedcba9876543210⟩)]) 2 = some ⟨0xff6e5d4c3b2a1908, 0x0⟩ := by decide +kernel

/-- V30: `shli v2, v1, 65`. -/
theorem test_shli_65 :
    valueAfter 0x14210041 (regs [(1, ⟨0x123456789abcdef, 0xfedcba9876543210⟩)]) 2 = some ⟨0xfdb97530eca86420, 0x0⟩ := by decide +kernel

/-- V36: `shri v2, v1, 63`. -/
theorem test_shri_63 :
    valueAfter 0x1521003F (regs [(1, ⟨0x123456789abcdef, 0xfedcba9876543210⟩)]) 2 = some ⟨0x0, 0x2468acf13579bdf⟩ := by decide +kernel

/-- V38: `shri v2, v1, 65`. -/
theorem test_shri_65 :
    valueAfter 0x15210041 (regs [(1, ⟨0x123456789abcdef, 0xfedcba9876543210⟩)]) 2 = some ⟨0x0, 0x91a2b3c4d5e6f7⟩ := by decide +kernel

/-- V41: `shl v3, v1, v2`. -/
theorem test_shl_64 :
    valueAfter 0x16312000 (regs [(1, ⟨0x0, 0xabcd⟩), (2, ⟨0x0, 0x40⟩)]) 3 = some ⟨0xabcd, 0x0⟩ := by decide +kernel

/-- V43: `shl v1, v1, v1`. -/
theorem test_shl_own_amount :
    valueAfter 0x16111000 (regs [(1, ⟨0x0, 0x1⟩)]) 1 = some ⟨0x0, 0x2⟩ := by decide +kernel

/-- V44: `shr v3, v1, v2`. -/
theorem test_shr_high_amount :
    valueAfter 0x17312000 (regs [(1, ⟨0xabcd, 0x0⟩), (2, ⟨0x1, 0x0⟩)]) 3 = some ⟨0, 0⟩ := by decide +kernel

/-- V45: `shr v3, v1, v2`. -/
theorem test_shr_4 :
    valueAfter 0x17312000 (regs [(1, ⟨0x123456789abcdef, 0xfedcba9876543210⟩), (2, ⟨0x0, 0x4⟩)]) 3 = some ⟨0x123456789abcde, 0xffedcba987654321⟩ := by decide +kernel

/-- V49: `roli v2, v1, 127`. -/
theorem test_roli_127 :
    valueAfter 0x1821007F (regs [(1, ⟨0x8000000000000000, 0x1⟩)]) 2 = some ⟨0xc000000000000000, 0x0⟩ := by decide +kernel

/-- V51: `roli v2, v1, 129`. -/
theorem test_roli_129 :
    valueAfter 0x18210081 (regs [(1, ⟨0x8000000000000000, 0x1⟩)]) 2 = some ⟨0x0, 0x3⟩ := by decide +kernel

/-- V53: `rori v2, v1, 4`. -/
theorem test_rori_4 :
    valueAfter 0x19210004 (regs [(1, ⟨0x123456789abcdef, 0xfedcba9876543210⟩)]) 2 = some ⟨0x123456789abcde, 0xffedcba987654321⟩ := by decide +kernel

/-- V54: `rol v3, v1, v2`. -/
theorem test_rol_64 :
    valueAfter 0x1A312000 (regs [(1, ⟨0x1234, 0x5678⟩), (2, ⟨0x0, 0x40⟩)]) 3 = some ⟨0x5678, 0x1234⟩ := by decide +kernel

/-- V55: `rol v3, v1, v2`. -/
theorem test_rol_high_amount :
    valueAfter 0x1A312000 (regs [(1, ⟨0x0, 0x1⟩), (2, ⟨0x1, 0x3⟩)]) 3 = some ⟨0x0, 0x8⟩ := by decide +kernel

/-- V56: `ror v3, v1, v2`. -/
theorem test_ror_4 :
    valueAfter 0x1B312000 (regs [(1, ⟨0x0, 0xf⟩), (2, ⟨0x0, 0x4⟩)]) 3 = some ⟨0xf000000000000000, 0x0⟩ := by decide +kernel

/-- V58: `add v3, v1, v2`. -/
theorem test_add_carry :
    valueAfter 0x20312000 (regs [(1, ⟨0x0, 0xffffffffffffffff⟩), (2, ⟨0x0, 0x1⟩)]) 3 = some ⟨0x1, 0x0⟩ := by decide +kernel

/-- V60: `add v3, v1, v2`. -/
theorem test_add_wraps :
    valueAfter 0x20312000 (regs [(1, ⟨0xffffffffffffffff, 0xffffffffffffffff⟩), (2, ⟨0xffffffffffffffff, 0xffffffffffffffff⟩)]) 3 = some ⟨0xffffffffffffffff, 0xfffffffffffffffe⟩ := by decide +kernel

/-- V62: `sub v3, v1, v2`. -/
theorem test_sub_borrow :
    valueAfter 0x21312000 (regs [(1, ⟨0x1, 0x0⟩), (2, ⟨0x0, 0x1⟩)]) 3 = some ⟨0x0, 0xffffffffffffffff⟩ := by decide +kernel

/-- V63: `sub v3, v1, v2`. -/
theorem test_sub_wraps :
    valueAfter 0x21312000 (regs [(1, ⟨0, 0⟩), (2, ⟨0x0, 0x1⟩)]) 3 = some ⟨0xffffffffffffffff, 0xffffffffffffffff⟩ := by decide +kernel

/-- V67: `inc v1, v1`. -/
theorem test_inc_carry :
    valueAfter 0x22110000 (regs [(1, ⟨0x7, 0xffffffffffffffff⟩)]) 1 = some ⟨0x8, 0x0⟩ := by decide +kernel

/-- V68: `inc v2, v1`. -/
theorem test_inc_wraps :
    valueAfter 0x22210000 (regs [(1, ⟨0xffffffffffffffff, 0xffffffffffffffff⟩)]) 2 = some ⟨0, 0⟩ := by decide +kernel

/-- V69: `dec v2, v1`. -/
theorem test_dec_borrow :
    valueAfter 0x23210000 (regs [(1, ⟨0x8, 0x0⟩)]) 2 = some ⟨0x7, 0xffffffffffffffff⟩ := by decide +kernel

/-- V70: `dec v2, v1`. -/
theorem test_dec_wraps :
    valueAfter 0x23210000 (regs [(1, ⟨0, 0⟩)]) 2 = some ⟨0xffffffffffffffff, 0xffffffffffffffff⟩ := by decide +kernel

/-- V71: `ceq v3, v1, v2`. -/
theorem test_ceq_equal :
    valueAfter 0x28312000 (regs [(1, ⟨0x3, 0x4⟩), (2, ⟨0x3, 0x4⟩)]) 3 = some ⟨0x0, 0x1⟩ := by decide +kernel

/-- V72: `ceq v3, v1, v2`. -/
theorem test_ceq_split :
    valueAfter 0x28312000 (regs [(1, ⟨0x0, 0xffffffffffffffff⟩), (2, ⟨0x1, 0x0⟩)]) 3 = some ⟨0, 0⟩ := by decide +kernel

/-- V75: `cne v3, v1, v2`. -/
theorem test_cne_equal :
    valueAfter 0x29312000 (regs [(1, ⟨0x3, 0x4⟩), (2, ⟨0x3, 0x4⟩)]) 3 = some ⟨0, 0⟩ := by decide +kernel

/-- V76: `cne v3, v1, v2`. -/
theorem test_cne_split :
    valueAfter 0x29312000 (regs [(1, ⟨0x0, 0xffffffffffffffff⟩), (2, ⟨0x1, 0x0⟩)]) 3 = some ⟨0x0, 0x1⟩ := by decide +kernel

/-- V79: `clt v3, v1, v2`. -/
theorem test_clt_equal :
    valueAfter 0x2A312000 (regs [(1, ⟨0x3, 0x4⟩), (2, ⟨0x3, 0x4⟩)]) 3 = some ⟨0, 0⟩ := by decide +kernel

/-- V80: `clt v3, v1, v2`. -/
theorem test_clt_split :
    valueAfter 0x2A312000 (regs [(1, ⟨0x0, 0xffffffffffffffff⟩), (2, ⟨0x1, 0x0⟩)]) 3 = some ⟨0x0, 0x1⟩ := by decide +kernel

/-- V83: `cle v3, v1, v2`. -/
theorem test_cle_equal :
    valueAfter 0x2B312000 (regs [(1, ⟨0x3, 0x4⟩), (2, ⟨0x3, 0x4⟩)]) 3 = some ⟨0x0, 0x1⟩ := by decide +kernel

/-- V85: `cle v3, v1, v2`. -/
theorem test_cle_split :
    valueAfter 0x2B312000 (regs [(1, ⟨0x1, 0x0⟩), (2, ⟨0x0, 0xffffffffffffffff⟩)]) 3 = some ⟨0, 0⟩ := by decide +kernel

/-- V87: `cgt v3, v1, v2`. -/
theorem test_cgt_equal :
    valueAfter 0x2C312000 (regs [(1, ⟨0x3, 0x4⟩), (2, ⟨0x3, 0x4⟩)]) 3 = some ⟨0, 0⟩ := by decide +kernel

/-- V89: `cgt v3, v1, v2`. -/
theorem test_cgt_split :
    valueAfter 0x2C312000 (regs [(1, ⟨0x1, 0x0⟩), (2, ⟨0x0, 0xffffffffffffffff⟩)]) 3 = some ⟨0x0, 0x1⟩ := by decide +kernel

/-- V91: `cge v3, v1, v2`. -/
theorem test_cge_equal :
    valueAfter 0x2D312000 (regs [(1, ⟨0x3, 0x4⟩), (2, ⟨0x3, 0x4⟩)]) 3 = some ⟨0x0, 0x1⟩ := by decide +kernel

/-- V92: `cge v3, v1, v2`. -/
theorem test_cge_split :
    valueAfter 0x2D312000 (regs [(1, ⟨0x0, 0xffffffffffffffff⟩), (2, ⟨0x1, 0x0⟩)]) 3 = some ⟨0, 0⟩ := by decide +kernel

/-- V96: `mul v3, v1, v2`. -/
theorem test_mul_full_product :
    valueAfter 0x30312000 (regs [(1, ⟨0x0, 0xffffffffffffffff⟩), (2, ⟨0x0, 0xffffffffffffffff⟩)]) 3 = some ⟨0xfffffffffffffffe, 0x1⟩ := by decide +kernel

/-- V97: `mul v3, v1, v2`. -/
theorem test_mul_wraps :
    valueAfter 0x30312000 (regs [(1, ⟨0xffffffffffffffff, 0xffffffffffffffff⟩), (2, ⟨0x0, 0x2⟩)]) 3 = some ⟨0xffffffffffffffff, 0xfffffffffffffffe⟩ := by decide +kernel

/-- V114: `divmod v6, v7, v8, v9`. -/
theorem test_divmod :
    valueAfter 0x38689700 (regs [(8, ⟨0x12349abc, 0xdef123456789abcd⟩), (9, ⟨0x1234, 0x9abcdef123456789⟩)]) 6 = some ⟨0x0, 0x10000⟩ ∧
    valueAfter 0x38689700 (regs [(8, ⟨0x12349abc, 0xdef123456789abcd⟩), (9, ⟨0x1234, 0x9abcdef123456789⟩)]) 7 = some ⟨0x0, 0xabcd⟩ := by decide +kernel

/-- V116: `divmod v8, v9, v8, v9`. -/
theorem test_divmod_sources_are_destinations :
    valueAfter 0x38889900 (regs [(8, ⟨0x0, 0x64⟩), (9, ⟨0x0, 0x7⟩)]) 8 = some ⟨0x0, 0xe⟩ ∧
    valueAfter 0x38889900 (regs [(8, ⟨0x0, 0x64⟩), (9, ⟨0x0, 0x7⟩)]) 9 = some ⟨0x0, 0x2⟩ := by decide +kernel

/-- V119: `div v3, v1, v2`. -/
theorem test_div_wide :
    valueAfter 0x39312000 (regs [(1, ⟨0xffffffffffffffff, 0xffffffffffffffff⟩), (2, ⟨0x1, 0x0⟩)]) 3 = some ⟨0x0, 0xffffffffffffffff⟩ := by decide +kernel

/-- V120: `div v3, v1, v2`. -/
theorem test_div_zero_by_zero :
    errorAfter 0x39312000 (regs [(1, ⟨0, 0⟩), (2, ⟨0, 0⟩)]) = some (3, 0x39312000, 0) := by decide +kernel

/-- V122: `rem v3, v1, v2`. -/
theorem test_rem_wide :
    valueAfter 0x3A312000 (regs [(1, ⟨0xffffffffffffffff, 0xffffffffffffffff⟩), (2, ⟨0x1, 0x0⟩)]) 3 = some ⟨0x0, 0xffffffffffffffff⟩ := by decide +kernel

/-- V123: `rem v3, v1, v2`. -/
theorem test_rem_by_zero :
    errorAfter 0x3A312000 (regs [(1, ⟨0x0, 0x9⟩), (2, ⟨0, 0⟩)]) = some (3, 0x3A312000, 0) := by decide +kernel

/-- V131: `dacc v1, v1, 16, '1'`. -/
theorem test_dacc_accumulates :
    valueAfter 0x40111031 (regs [(1, ⟨0xffffffffffffffff, 0xffffffffffffffff⟩)]) 1 = some ⟨0xffffffffffffffff, 0xfffffffffffffff1⟩ := by decide +kernel

/-- V127: `dacc v1, v1, 10, 'a'`. -/
theorem test_dacc_bad_digit :
    errorAfter 0x40110A61 (regs [(1, ⟨0x0, 0xc⟩)]) = some (1, 0x40110A61, 0) := by decide +kernel

/-- V135: `ddiv v2, v3, v2, 10`. -/
theorem test_ddiv_wide :
    valueAfter 0x41220A03 (regs [(2, ⟨0xffffffffffffffff, 0xffffffffffffffff⟩)]) 2 = some ⟨0x1999999999999999, 0x9999999999999999⟩ ∧
    valueAfter 0x41220A03 (regs [(2, ⟨0xffffffffffffffff, 0xffffffffffffffff⟩)]) 3 = some ⟨0x0, 0x35⟩ := by decide +kernel

/-- V133: `ddiv v2, v3, v2, 10`. -/
theorem test_ddiv_zero :
    valueAfter 0x41220A03 (regs [(2, ⟨0, 0⟩)]) 2 = some ⟨0, 0⟩ ∧
    valueAfter 0x41220A03 (regs [(2, ⟨0, 0⟩)]) 3 = some ⟨0x0, 0x30⟩ := by decide +kernel

/-- V138: `parse v0, 16`. -/
theorem test_parse_letters :
    valueAfter 0x42001000 (text "FF".toList (regs [])) 0 = some ⟨0x0, 0xff⟩ := by decide +kernel

/-- V144: `parse v0, 16`. -/
theorem test_parse_bad_character :
    errorAfter 0x42001000 (text "0x1F".toList (regs [(0, ⟨0x0, 0x9⟩)])) = some (1, 0x42001000, 1) := by decide +kernel

/-- V153: `format v0, 10, 15`. -/
theorem test_format_pads :
    textAfter 0x43000A0F (regs [(0, ⟨0, 0⟩)]) = some (bytes "000000000000000".toList) := by decide +kernel

/-- V155: `format v0, 10, 0`. -/
theorem test_format_zero_empty :
    textAfter 0x43000A00 (regs [(0, ⟨0, 0⟩)]) = some [] := by decide +kernel

/-! ## The divider and the host's operations -/

/-- The table of 95_test_vectors.md L1.4 (R11). -/
theorem test_bitwidth :
    bitwidth ⟨0, 0⟩ = 0 ∧ bitwidth ⟨0, 1⟩ = 1 ∧ bitwidth ⟨1, 0⟩ = 65 ∧
    bitwidth ⟨0xffffffffffffffff, 0xffffffffffffffff⟩ = 128 := by decide +kernel

/-- What one host operation leaves. -/
def afterOp (op : HostOp) (s : State) : Option State :=
  match step (withOp op s) with
  | .next t => some t
  | _       => none

/-- R84: a register write and read, and TLEN at most 256 (R39). -/
theorem test_host_register_and_length :
    (afterOp (.writeReg 3 7 9) State.reset).map (readReg · 3) = some ⟨7, 9⟩ ∧
    (afterOp (.readReg 3) (regs [(3, ⟨7, 9⟩)])).map State.reply = some (some (.reg 7 9)) ∧
    (afterOp (.writeTlen 300) State.reset).map State.tlen = some 256 ∧
    (afterOp (.writeTlen 36) State.reset).map State.tlen = some 36 := by decide +kernel

/-- R84, R36: writing 1 to a sticky bit clears it and leaves CODE. -/
theorem test_host_clears_sticky :
    (afterOp (.writeStatus 0x40) { State.reset with status := 0x73 }).map State.status = some 0x33 ∧
    (afterOp (.writeStatus 0xFFFFFFFF) { State.reset with status := 0x73 }).map State.status = some 0x03 := by
  decide +kernel

/-- R84: a text byte written and read back. -/
theorem test_host_text :
    (afterOp (.writeTb 255 0x41) State.reset).map (tbRead · 255) = some 0x41 ∧
    (afterOp (.readTb 0) (text "A".toList State.reset)).map State.reply = some (some (.tb 0x41)) := by decide +kernel

/-- R340: reset clears registers, status and length. -/
theorem test_host_reset :
    (afterOp .reset { regs [(1, ⟨1, 1⟩)] with status := 0x73, faultcmd := 5, erridx := 2, tlen := 9 }).map
      (fun t => (t.v, t.status, t.faultcmd, t.erridx, t.tlen)) =
    some (State.reset.v, 0, 0, 0, 0) := by decide +kernel

/-! ## Witnesses: the hypotheses of each statement can be met -/

theorem filled_tlen {n : Nat} (h : n ≤ 256) (b : Byte) : (filled n b).tlen.val = n :=
  (tlenOf_val (by rwa [List.length_replicate])).trans List.length_replicate

theorem filled_read {n k : Nat} (h : k < n) (b : Byte) : tbRead (filled n b) k = b := by
  rw [filled, tbRead_tbPutText, dif_pos (by rwa [List.length_replicate]), List.getElem_replicate]

theorem tlen_tbWrite (k : Nat) (b : Byte) (s : State) : (tbWrite k b s).tlen = s.tlen := rfl

/-- The invariant and a step that runs a command. -/
theorem witness_StepKeepsInvariant :
    (text "12".toList (regs [])).withFetchWord 32 0x42000A00 |>.Inv := by
  refine ⟨⟨by decide +kernel, by decide +kernel⟩, ?_⟩
  show Memory.wf [(0, 0x31), (1, 0x32)]
  decide

theorem witness_IdleStepChangesNothing : State.reset.pending = [] := rfl

theorem witness_StepRunsTheIssuedCommand :
    (withOp (.issue 0x20123000) State.reset).pending = .issue 0x20123000 :: [] ∧
    Spells 0x20123000 (.add 1 2 3) ∧ Spells (BitVec.ofNat 32 0x20123000) (.add 1 2 3) := ⟨rfl, rfl, rfl⟩

theorem witness_DecodeOfEncodeIsTheCommand : (Instr.divmod 6 7 8 9).wf = true := by decide

theorem witness_EncodeOfDecodeIsTheWord : decode 0x41221003 = .ok (.ddiv 2 3 2 16) := rfl

/-- One word for each clause. -/
theorem witness_IllegalWordsAreRejectedByCause :
    ((0x44000000#32).extractLsb' 24 8).toNat ∉ assignedOpcodes ∧
    (∃ r ∈ opcodeTable, (0x02412345#32).extractLsb' 24 8 = r.op ∧ 0x02412345#32 &&& mustBeZero r.format ≠ 0) ∧
    ((0x38689600#32).extractLsb' 24 8 = 0x38#8 ∧ 0x38689600#32 &&& mustBeZero .R4 = 0 ∧
      (0x38689600#32).extractLsb' 20 4 = (0x38689600#32).extractLsb' 8 4) ∧
    ((0x41221002#32).extractLsb' 24 8 = 0x41#8 ∧ 0x41221002#32 &&& mustBeZero .XD = 0 ∧
      (0x41221002#32).extractLsb' 20 4 = (0x41221002#32).extractLsb' 0 4) := by decide +kernel

theorem witness_IllegalWordIsRecorded : decode 0x38689600 = .error .sameDestination := rfl

/-- The least and the largest nonzero divisor. -/
theorem witness_DivideResults :
    readReg (regs [(9, ⟨0, 1⟩)]) 9 ≠ Value.zero ∧
    readReg (regs [(9, ⟨0xffffffffffffffff, 0xffffffffffffffff⟩)]) 9 ≠ Value.zero ∧
    readReg State.reset 9 = Value.zero ∧ (6 : Reg) ≠ 7 := by decide +kernel

theorem witness_ZeroDivisorIsRecorded : readReg (regs [(8, ⟨0, 0x64⟩)]) 9 = Value.zero ∧ (6 : Reg) ≠ 7 := by
  decide +kernel

/-- The ends of the radix range, a digit at the top of each, and characters that are none. -/
theorem witness_DaccResult :
    (2 ≤ (2#8).toNat ∧ (2#8).toNat ≤ 36 ∧ IsDigit 2 0x31 1 ∧ ¬ ∃ d, IsDigit 2 0x32 d) ∧
    (2 ≤ (36#8).toNat ∧ (36#8).toNat ≤ 36 ∧ IsDigit 36 0x7A 35 ∧ IsDigit 36 0x5A 35 ∧ ¬ ∃ d, IsDigit 36 0x7B d) := by
  refine ⟨⟨by decide, by decide, by unfold IsDigit; decide, ?_⟩, by decide, by decide, by unfold IsDigit; decide,
    by unfold IsDigit; decide, ?_⟩
  · rintro ⟨d, h⟩; simp [IsDigit] at h; omega
  · rintro ⟨d, h⟩; simp [IsDigit] at h; omega

theorem witness_DdivResult :
    2 ≤ (2#8).toNat ∧ (2#8).toNat ≤ 36 ∧ 2 ≤ (36#8).toNat ∧ (36#8).toNat ≤ 36 ∧ (2 : Reg) ≠ 3 := by decide

/-- A text of one character, and the longest text, 256 characters. -/
theorem witness_ParseResult :
    (0 < (filled 1 0x7A).tlen.val ∧ [35].length = (filled 1 0x7A).tlen.val ∧
      ∀ k (h : k < [35].length), IsDigit 36 (tbRead (filled 1 0x7A) k) [35][k]) ∧
    (0 < (filled 256 0x31).tlen.val ∧ (List.replicate 256 1).length = (filled 256 0x31).tlen.val ∧
      ∀ k (h : k < (List.replicate 256 1).length),
        IsDigit 2 (tbRead (filled 256 0x31) k) (List.replicate 256 1)[k]) := by
  rw [filled_tlen (by decide), filled_tlen (by decide)]
  refine ⟨⟨by decide, rfl, fun k h => ?_⟩, by decide, List.length_replicate, fun k h => ?_⟩
  · have hk : k = 0 := by simpa using h
    subst hk
    rw [filled_read (by decide)]; show IsDigit 36 0x7A 35; unfold IsDigit; decide
  · rw [filled_read (by rwa [List.length_replicate] at h), List.getElem_replicate]; unfold IsDigit; decide

/-- An empty text; a bad character at the first index, and at index 255. -/
theorem witness_ParseResult_errors :
    State.reset.tlen.val = 0 ∧
    ((0#8).toNat < (text " 5".toList State.reset).tlen.val ∧
      ¬ ∃ d, IsDigit 10 (tbRead (text " 5".toList State.reset) (0#8).toNat) d) ∧
    ((255#8).toNat < (tbWrite 255 0x20 (filled 256 0x31)).tlen.val ∧
      (∀ j < (255#8).toNat, ∃ d, IsDigit 10 (tbRead (tbWrite 255 0x20 (filled 256 0x31)) j) d) ∧
      ¬ ∃ d, IsDigit 10 (tbRead (tbWrite 255 0x20 (filled 256 0x31)) (255#8).toNat) d) := by
  have no : ¬ ∃ d, IsDigit 10 0x20 d := by rintro ⟨d, h⟩; simp [IsDigit] at h; omega
  have full : (tbWrite 255 0x20 (filled 256 0x31)).tlen.val = 256 := 
    (congrArg Fin.val (tlen_tbWrite 255 0x20 _)).trans (filled_tlen (Nat.le_refl 256) _)
  refine ⟨rfl, ⟨by decide, ?_⟩, by rw [full]; decide, fun j hj => ⟨1, ?_⟩, ?_⟩
  · rw [show tbRead (text " 5".toList State.reset) (0#8).toNat = 0x20 from by decide +kernel]; exact no
  · have hj : j < 255 := hj
    rw [tbRead_tbWrite, if_neg (by omega), filled_read (by omega)]; unfold IsDigit; decide
  · rw [tbRead_tbWrite, if_pos (by decide)]; exact no

/-- An empty text, a bad character at the last index of the buffer, and one for DACC. -/
theorem witness_InvalidArgumentIsRecorded :
    State.reset.tlen.val = 0 ∧ 255 < (filled 256 0x20).tlen.val ∧
    (¬ ∃ d, IsDigit 36 (tbRead (filled 256 0x20) 255) d) ∧ ¬ ∃ d, IsDigit 36 0x20 d := by
  have no : ¬ ∃ d, IsDigit 36 0x20 d := by rintro ⟨d, h⟩; simp [IsDigit] at h; omega
  exact ⟨rfl, by rw [filled_tlen (by decide)]; decide, by rw [filled_read (by decide)]; exact no, no⟩

theorem witness_FormatResult :
    2 ≤ (2#8).toNat ∧ (2#8).toNat ≤ 36 ∧ 2 ≤ (36#8).toNat ∧ (36#8).toNat ≤ 36 := by decide

/-- The values next to the range, and the ends of the field. -/
theorem witness_RadixOutOfRangeIsRecorded :
    ¬ (2 ≤ (1#8).toNat ∧ (1#8).toNat ≤ 36) ∧ ¬ (2 ≤ (37#8).toNat ∧ (37#8).toNat ≤ 36) ∧
    ¬ (2 ≤ (0#8).toNat ∧ (0#8).toNat ≤ 36) ∧ ¬ (2 ≤ (255#8).toNat ∧ (255#8).toNat ≤ 36) ∧ (2 : Reg) ≠ 3 := by decide

/-- Every host operation answers, so the statements about `step (withOp op s) = .next t` have their premise for
each. -/
theorem witness_every_operation_answers :
    ∀ op ∈ [HostOp.reset, .writeReg 1 2 3, .readReg 1, .writeTb 4 5, .readTb 4, .writeTlen 2, .readTlen, .readStatus,
      .writeStatus 0xF0, .readFaultcmd, .readErridx, .issue 0x20123000], ∃ t, step (withOp op State.reset) = .next t :=
  fun op _ => (performHostOp_next op _).imp fun _ h => h.1

/-- An issued word that succeeds, one that is no command, one whose command raises an error. -/
theorem witness_CodeIsWrittenByEveryCommandOnly :
    (afterOp (.issue 0x20123000) State.reset).map (fun t => (statusCode t.status, t.faultcmd)) = some (0, 0) ∧
    (afterOp (.issue 0x00000000) State.reset).map (fun t => (statusCode t.status, t.faultcmd)) = some (4, 0) ∧
    (afterOp (.issue 0x3A312000) State.reset).map (fun t => (statusCode t.status, t.faultcmd)) =
      some (3, 0x3A312000) := by decide +kernel

/-- A sticky bit set by an error, kept by a success, cleared by the host and by reset. -/
theorem witness_StickyBitLifecycle :
    (afterOp (.issue 0x3A312000) State.reset).map (sticky .divisionByZero ·.status) = some true ∧
    (afterOp (.issue 0x20123000) { State.reset with status := 0x43 }).map (sticky .divisionByZero ·.status) =
      some true ∧
    (afterOp (.writeStatus 0x40) { State.reset with status := 0x43 }).map (sticky .divisionByZero ·.status) =
      some false ∧
    (afterOp .reset { State.reset with status := 0x43 }).map (sticky .divisionByZero ·.status) = some false := by
  decide +kernel

/-- FAULTCMD written by an error, kept by a success. -/
theorem witness_FaultcmdHoldsTheFailedWord :
    (afterOp (.issue 0x43002501) State.reset).map State.faultcmd = some 0x43002501 ∧
    (afterOp (.issue 0x20123000) { State.reset with faultcmd := 7 }).map State.faultcmd = some 7 := by decide +kernel

/-- ERRIDX: a success, a PARSE that stops on character 2 (V145), an error of another kind, an empty text. -/
theorem witness_ErridxHoldsTheBadIndex :
    (afterOp (.issue 0x20123000) { State.reset with erridx := 9 }).map (fun t => (statusCode t.status, t.erridx)) =
      some (0, 9) ∧
    (afterOp (.issue 0x42000A00) (text "12a4".toList State.reset)).map (fun t => (statusCode t.status, t.erridx)) =
      some (1, 2) ∧
    (afterOp (.issue 0x3A312000) { State.reset with erridx := 9 }).map (fun t => (statusCode t.status, t.erridx)) =
      some (3, 0) ∧
    (afterOp (.issue 0x42000A00) { State.reset with erridx := 9 }).map (fun t => (statusCode t.status, t.erridx)) =
      some (1, 0) ∧
    0 < (text "12a4".toList State.reset).tlen.val ∧ Spells 0x42000A00 (.parse 0 10) :=
  ⟨by decide +kernel, by decide +kernel, by decide +kernel, by decide +kernel, by decide +kernel, rfl⟩

/-- A register that changes by each of its three writers. -/
theorem witness_RegisterWriters :
    (afterOp (.issue 0x02400001) State.reset).map (readReg · 4) ≠ some (readReg State.reset 4) ∧
    (afterOp (.writeReg 4 1 2) State.reset).map (readReg · 4) ≠ some (readReg State.reset 4) ∧
    (afterOp .reset (regs [(4, ⟨1, 2⟩)])).map (readReg · 4) ≠ some (readReg (regs [(4, ⟨1, 2⟩)]) 4) := by decide +kernel

/-- A byte and a length that change by FORMAT and by the host's writes. -/
theorem witness_TextWriters :
    (afterOp (.issue 0x43000A01) (text "x".toList State.reset)).map (tbRead · 0) ≠
      some (tbRead (text "x".toList State.reset) 0) ∧
    (afterOp (.writeTb 0 0x41) (text "x".toList State.reset)).map (tbRead · 0) ≠
      some (tbRead (text "x".toList State.reset) 0) ∧
    (afterOp (.issue 0x43000A01) State.reset).map State.tlen ≠ some State.reset.tlen ∧
    (afterOp (.writeTlen 1) State.reset).map State.tlen ≠ some State.reset.tlen ∧
    (afterOp .reset (text "x".toList State.reset)).map State.tlen ≠ some (text "x".toList State.reset).tlen := by
  decide +kernel

/-- Two different states that agree on a command's registers; and two that agree on the text. -/
theorem witness_CommandReadsOnlyItsSources :
    ((∀ r, r ∈ srcsOf (.add 3 1 2) ∨ r ∈ destsOf (.add 3 1 2) →
        readReg (regs [(1, ⟨5, 6⟩)]) r = readReg (regs [(1, ⟨5, 6⟩), (9, ⟨1, 1⟩)]) r) ∧
      (∃ t, exec (.add 3 1 2) (regs [(1, ⟨5, 6⟩)]) = .next t) ∧
      ∃ t, exec (.add 3 1 2) (regs [(1, ⟨5, 6⟩), (9, ⟨1, 1⟩)]) = .next t) ∧
    ((text "12".toList State.reset).tlen = (text "12".toList (regs [(9, ⟨1, 1⟩)])).tlen ∧
      ∀ k, k < 2 → tbRead (text "12".toList State.reset) k = tbRead (text "12".toList (regs [(9, ⟨1, 1⟩)])) k) :=
  ⟨⟨by decide +kernel, ⟨_, rfl⟩, ⟨_, rfl⟩⟩, by decide +kernel, by decide +kernel⟩

/-- A carry and none; a borrow and none. -/
theorem witness_CarryAndBorrowRecovered :
    (3 : Reg) ≠ 1 ∧
    2 ^ 128 ≤ (readReg (regs [(1, ⟨0xffffffffffffffff, 0xffffffffffffffff⟩), (2, ⟨0, 1⟩)]) 1).val +
      (readReg (regs [(1, ⟨0xffffffffffffffff, 0xffffffffffffffff⟩), (2, ⟨0, 1⟩)]) 2).val ∧
    ¬ 2 ^ 128 ≤ (readReg State.reset 1).val + (readReg State.reset 2).val ∧
    (readReg (regs [(2, ⟨0, 1⟩)]) 1).val < (readReg (regs [(2, ⟨0, 1⟩)]) 2).val := by decide +kernel

/-- The edges of the four bands. -/
theorem witness_ShiftBands :
    128 ≤ 128 ∧ (64 ≤ 64 ∧ 64 ≤ 127) ∧ (64 ≤ 127 ∧ 127 ≤ 127) ∧ (1 ≤ 1 ∧ 1 ≤ 63) ∧ (1 ≤ 63 ∧ 63 ≤ 63) ∧ 0 = 0 := by
  decide

theorem witness_RotationLaws : 0 % 128 = 0 ∧ 128 % 128 = 0 ∧ 1 % 128 ≠ 0 ∧ 127 % 128 ≠ 0 ∧ 129 % 128 ≠ 0 := by decide

theorem witness_PartialProductsAndNarrowMultiply :
    (1 < 4 ∧ 3 < 4 ∧ 4 ≤ 1 + 3) ∧ 0 + 0 = 0 ∧ 1 + 0 = 1 ∧ (0 + 2 = 2 ∧ 1 + 1 = 2 ∧ 2 + 0 = 2) ∧ 0 + 3 = 3 ∧
    (Value.ofNat (2 ^ 64 - 1)).high = 0 ∧ 2 ≤ 2 := by decide

theorem witness_RestoringDividerDivides :
    Value.one ≠ Value.zero ∧ lt128 Value.one Value.one = false ∧
    lt128 (Value.ofNat (2 ^ 128 - 1)) Value.one = false := by decide

/-- A divisor of one limb, with and without a quotient of one limb. -/
theorem witness_DivisionInvariantAndNarrowDivide :
    Value.one ≠ Value.zero ∧ Value.one.high = 0 ∧ (Value.ofNat 5).high < Value.one.low ∧
    ¬ (Value.ofNat (2 ^ 64)).high < Value.one.low := by decide

/-- Both kinds of `mind`. -/
theorem witness_FormatThenParseRoundTrip :
    2 ≤ (2#8).toNat ∧ (36#8).toNat ≤ 36 ∧ 1 ≤ (1#8).toNat ∧ (0#8).toNat = 0 ∧
    readReg (regs [(1, ⟨0, 1⟩)]) 1 ≠ Value.zero ∧ readReg State.reset 1 = Value.zero := by decide +kernel

theorem witness_ParseIsASequenceOfDaccs :
    2 ≤ (36#8).toNat ∧ (36#8).toNat ≤ 36 ∧ 0 < (filled 256 0x7A).tlen.val ∧
    ∀ k, k < (filled 256 0x7A).tlen.val → ∃ d, IsDigit (36#8).toNat (tbRead (filled 256 0x7A) k) d := by
  rw [filled_tlen (by decide)]
  refine ⟨by decide, by decide, by decide, fun k h => ⟨35, ?_⟩⟩
  rw [filled_read h]; unfold IsDigit; decide

/-- A text with a bad character after two digits (V145). -/
theorem witness_ParseIsASequenceOfDaccs_error :
    (2#8).toNat < (text "12a4".toList State.reset).tlen.val ∧ [1, 2].length = (2#8).toNat ∧
    (∀ k (h : k < [1, 2].length), IsDigit 10 (tbRead (text "12a4".toList State.reset) k) [1, 2][k]) ∧
    ¬ ∃ d, IsDigit 10 (tbRead (text "12a4".toList State.reset) (2#8).toNat) d := by
  unfold IsDigit
  refine ⟨by decide +kernel, rfl, by decide +kernel, ?_⟩
  rw [show tbRead (text "12a4".toList State.reset) (2#8).toNat = 0x61 from by decide +kernel]
  rintro ⟨d, h⟩; simp at h; omega

/-- The one digit of 1, and the last of the 128 binary digits of 2^128 - 1. -/
theorem witness_FormatIsASequenceOfDdivs :
    (2 : Reg) ≠ 3 ∧ 0 < (Nat.digits (36#8).toNat (Value.val ⟨0, 1⟩)).length ∧
    127 < (Nat.digits (2#8).toNat (Value.val ⟨0xffffffffffffffff, 0xffffffffffffffff⟩)).length := by
  refine ⟨by decide, ?_, ?_⟩
  · rw [Nat.length_digits _ _ (by decide) (by decide)]; omega
  · rw [Nat.length_digits _ _ (by decide) (by decide)]
    exact Nat.lt_succ_of_le (Nat.le_log_of_pow_le (by decide) (by decide +kernel))

end Sys2Proof.Tests
end

/-! ## 10_state.md: power-on, the invariant, and the status registers

Three rules carry the whole family: an issued word leaves the status registers clean or records one error of that very
word, any other host operation leaves them alone unless it is `H_RESET` or `H_WRITE_STATUS`, and only a PARSE that
stopped on a character puts an index other than 0 into ERRIDX. -/

/-! ### A legal word is the encoding of what it decodes to -/

namespace Sys2Proof

/-- What a word that decodes passed: the opcode, the must-be-zero bits and the two destinations (R119). -/
theorem decode_ok {c : CmdWord} {i : Instr} (h : decode c = .ok i) :
    ∃ r ∈ opcodeTable, r.op = fOp c ∧ c &&& mustBeZero r.format = 0 ∧ r.build c = i ∧ i.wf = true := by
  unfold decode at h
  split at h
  · cases h
  · next r hr =>
    split at h
    · cases h
    · next hm =>
      split at h
      · next hw =>
        cases h
        have hop := List.find?_some hr
        exact ⟨r, List.mem_of_find?_eq_some hr, by simpa using hop, not_not.1 hm, rfl, hw⟩
      · cases h

/-- The word of format `f` and opcode `op` whose operand fields are those of `c` (R102). -/
def refield (op : BitVec 8) (c : CmdWord) : Format → CmdWord
  | .R  => encR op (fRd c) (fRs1 c) (fRs2 c)
  | .R2 => encR2 op (fRd c) (fRs1 c)
  | .R4 => encR4 op (fRd c) (fRd2 c) (fRs1 c) (fRs2 c)
  | .I  => encI op (fRd c) (fRs1 c) (fImm8 c)
  | .U  => encU op (fRd c) (fImm16 c)
  | .XA => encXA op (fRd c) (fRs1 c) (fBase c) (fAux c)
  | .XD => encXD op (fRd c) (fRd2X c) (fRs1 c) (fBase c)
  | .XP => encXP op (fRd c) (fBase c)
  | .XF => encXF op (fRs1 c) (fBase c) (fAux c)

/-- Every row encodes what it builds in its own format, under its own opcode. -/
theorem encode_build {r : Row} (hr : r ∈ opcodeTable) (c : CmdWord) :
    encode (r.build c) = refield r.op c r.format := by
  revert r
  simp [opcodeTable, Config.rotate, rowsRepresentation, rowsBitwise, rowsRotate, rowsAdditive, rowsMultiply,
    rowsDivide, rowsText, encode, refield]

/-- Two adjacent fields side by side are one field; the library's lemma in the form that finds the next field down. -/
theorem extract_append {w : Nat} (c : BitVec w) (s l k : Nat) :
    c.extractLsb' (s + l) k ++ c.extractLsb' s l = c.extractLsb' s (k + l) :=
  BitVec.extractLsb'_append_extractLsb'_eq_extractLsb' rfl

/-- A word whose must-be-zero bits are 0 is made of its fields: the fields and the zero bits between them lie side by
side. -/
theorem refield_self {c : CmdWord} {f : Format} (h : c &&& mustBeZero f = 0) : refield (fOp c) c f = c := by
  cases f with
  | R =>
    have hz : c.extractLsb' 0 12 = 0#12 := (mbz_R c).1 h
    rw [refield, encR, ← hz, fOp, fRd, fRs1, fRs2, extract_append c 20 4, extract_append c 16 4,
      extract_append c 12 4, extract_append c 0 12, extract_self]
  | R2 =>
    have hz : c.extractLsb' 0 16 = 0#16 := (mbz_R2 c).1 h
    rw [refield, encR2, ← hz, fOp, fRd, fRs1, extract_append c 20 4, extract_append c 16 4, extract_append c 0 16,
      extract_self]
  | R4 =>
    have hz : c.extractLsb' 0 8 = 0#8 := (mbz_R4 c).1 h
    rw [refield, encR4, ← hz, fOp, fRd, fRs1, fRs2, fRd2, extract_append c 20 4, extract_append c 16 4,
      extract_append c 12 4, extract_append c 8 4, extract_append c 0 8, extract_self]
  | I =>
    have hz : c.extractLsb' 8 8 = 0#8 := (mbz_I c).1 h
    rw [refield, encI, ← hz, fOp, fRd, fRs1, fImm8, extract_append c 20 4, extract_append c 16 4,
      extract_append c 8 8, extract_append c 0 8, extract_self]
  | U =>
    have hz : c.extractLsb' 16 4 = 0#4 := (mbz_U c).1 h
    rw [refield, encU, ← hz, fOp, fRd, fImm16, extract_append c 20 4, extract_append c 16 4, extract_append c 0 16,
      extract_self]
  | XA =>
    rw [refield, encXA, fOp, fRd, fRs1, fBase, fAux, extract_append c 20 4, extract_append c 16 4,
      extract_append c 8 8, extract_append c 0 8, extract_self]
  | XD =>
    have hz : c.extractLsb' 4 4 = 0#4 := (mbz_XD c).1 h
    rw [refield, encXD, ← hz, fOp, fRd, fRs1, fBase, fRd2X, extract_append c 20 4, extract_append c 16 4,
      extract_append c 8 8, extract_append c 4 4, extract_append c 0 4, extract_self]
  | XP =>
    obtain ⟨hz16, hz0⟩ : c.extractLsb' 16 4 = 0#4 ∧ c.extractLsb' 0 8 = 0#8 := (mbz_XP c).1 h
    rw [refield, encXP, ← hz16, ← hz0, fOp, fRd, fBase, extract_append c 20 4, extract_append c 16 4,
      extract_append c 8 8, extract_append c 0 8, extract_self]
  | XF =>
    have hz : c.extractLsb' 20 4 = 0#4 := (mbz_XF c).1 h
    rw [refield, encXF, ← hz, fOp, fRs1, fBase, fAux, extract_append c 20 4, extract_append c 16 4,
      extract_append c 8 8, extract_append c 0 8, extract_self]
theorem encode_of_decode {c : CmdWord} {i : Instr} (h : decode c = .ok i) : encode i = c := by
  obtain ⟨r, hr, hop, hm, rfl, -⟩ := decode_ok h
  rw [encode_build hr, hop, refield_self hm]

end Sys2Proof

namespace Sys2Proof.Machine

/-! ### The error kinds -/

theorem ErrorKind.code_inj {e f : ErrorKind} : e.code = f.code ↔ e = f := by cases e <;> cases f <;> decide

theorem ErrorKind.code_ne_zero (e : ErrorKind) : e.code ≠ 0 := by cases e <;> decide

theorem ErrorKind.stickyBit_inj {e f : ErrorKind} : e.stickyBit = f.stickyBit ↔ e = f := by
  cases e <;> cases f <;> decide

/-! ### How an answer bears on the status registers -/

/-- The three status registers are as before. -/
structure SameStatus (s t : State) : Prop where
  status   : t.status = s.status
  faultcmd : t.faultcmd = s.faultcmd
  erridx   : t.erridx = s.erridx

/-- Completing after work that left the status registers alone leaves them clean. -/
theorem SameStatus.clean_of_complete {s s' t : State} (hs : SameStatus s s') (h : complete s' = .next t) :
    CleanStatus s t := by
  obtain ⟨hstatus, hfault, hidx⟩ := hs
  cases h
  obtain ⟨hcode, hothers, hfault', hidx'⟩ := cleanStatus_complete s'
  exact ⟨hcode, fun k hk => hstatus ▸ hothers k hk, hfault'.trans hfault, hidx'.trans hidx⟩

theorem clean_of_finish {rd : Reg} {x : Value} {s t : State} (h : finish rd x s = .next t) : CleanStatus s t :=
  SameStatus.clean_of_complete (s' := writeReg rd x s) ⟨rfl, rfl, rfl⟩ h

theorem recorded_of_raiseError {e : ErrorKind} {c : CmdWord} {idx : BitVec 8} {s t : State}
    (h : raiseError e c idx s = .next t) : Recorded s t e c idx := by
  obtain ⟨t', ht, hr⟩ := raiseError_recorded e c idx s
  cases ht.symm.trans h
  exact hr

theorem CleanStatus.sticky_eq {s t : State} (h : CleanStatus s t) (e : ErrorKind) :
    sticky e t.status = sticky e s.status :=
  h.others _ (by have := e.stickyBit_bounds; omega)

/-- Recording an error sets the sticky bit of its kind and no other. -/
theorem Recorded.sticky_eq {s t : State} {e : ErrorKind} {c : CmdWord} {idx : BitVec 8} (h : Recorded s t e c idx)
    (f : ErrorKind) : sticky f t.status = (sticky f s.status || decide (e = f)) := by
  by_cases hf : e = f
  · subst hf
    simp [h.bit]
  · have hne : f.stickyBit ≠ e.stickyBit := fun hb => hf (ErrorKind.stickyBit_inj.1 hb).symm
    have hkeep : sticky f t.status = sticky f s.status :=
      h.others f.stickyBit (by have := f.stickyBit_bounds; omega) hne
    simp [hf, hkeep]

/-! ### What an issued word does to the status registers -/

/-- A command leaves the status registers clean or records one error of its own word. -/
theorem exec_clean_or_recorded {i : Instr} {s t : State} (h : exec i s = .next t) :
    CleanStatus s t ∨ ∃ e idx, Recorded s t e (encode i) idx := by
  obtain ⟨t', ht, hends⟩ := exec_cases i s
  cases ht.symm.trans h
  obtain ⟨_, _, hw⟩ | ⟨_, _, _, _, _, hw⟩ | ⟨_, _, hw⟩ | hr := hends
  · exact .inl hw.status
  · exact .inl hw.status
  · exact .inl hw.status
  · exact .inr hr

/-- An issued word, legal or not, leaves the status registers clean or records one error of that word (R304, R305). -/
theorem issue_clean_or_recorded {c : CmdWord} {s t : State} (h : issue c s = .next t) :
    CleanStatus s t ∨ ∃ e idx, Recorded s t e c idx := by
  cases hd : decode c with
  | ok i =>
    rw [issue_ok hd] at h
    rw [← encode_of_decode hd]
    exact exec_clean_or_recorded h
  | error err =>
    rw [issue_error hd] at h
    exact .inr ⟨_, _, recorded_of_raiseError h⟩

/-! ### What every other host operation does to them -/

/-- Apart from `H_RESET`, `H_WRITE_STATUS` and `H_ISSUE` no host operation touches the status registers. -/
theorem performHostOp_sameStatus {op : HostOp} {s t : State} (h : performHostOp op s = .next t)
    (hreset : op ≠ .reset) (hack : ∀ w, op ≠ .writeStatus w) (hissue : ∀ c, op ≠ .issue c) : SameStatus s t := by
  cases op with
  | reset => exact absurd rfl hreset
  | writeStatus w => exact absurd rfl (hack w)
  | issue c => exact absurd rfl (hissue c)
  | _ => cases h; exact ⟨rfl, rfl, rfl⟩

/-- The host's acknowledgement leaves CODE (R36). -/
theorem statusCode_ackStatus (w st : BitVec 32) : statusCode (ackStatus w st) = statusCode st := by
  apply BitVec.eq_of_getLsbD_eq
  intro k hk
  simp [statusCode, getLsbD_ackStatus, show ¬ 4 ≤ k by omega]

/-- The host's acknowledgement clears a sticky bit exactly where it writes 1 (R36). -/
theorem sticky_ackStatus (e : ErrorKind) (w st : BitVec 32) :
    sticky e (ackStatus w st) = (sticky e st && !w.getLsbD e.stickyBit) := by
  have hb := e.stickyBit_bounds
  simp [sticky, getLsbD_ackStatus, show 4 ≤ e.stickyBit ∧ e.stickyBit ≤ 7 by omega]

/-! ### Which index an error records -/

/-- `digit_value` finds exactly the digits of the radix (46_text_codec.md R271). -/
theorem digitValue_eq_some_iff {c : Byte} {base : BitVec 8} {d : Nat} :
    digitValue c base = some d ↔ IsDigit base.toNat c d := by
  -- in each of the ranges of R271 both sides are linear facts about the code of the character
  simp only [digitValue, digitBelow, IsDigit]
  split_ifs <;> simp <;> omega

theorem digitValue_eq_none_iff {c : Byte} {base : BitVec 8} :
    digitValue c base = none ↔ ¬ ∃ d, IsDigit base.toNat c d := by
  simp [Option.eq_none_iff_forall_ne_some, digitValue_eq_some_iff]

/-- The loop of PARSE stops on the first character that is no digit. -/
theorem parseChars_error {base : BitVec 8} {cs : List Byte} {k j : Nat} {acc : Value}
    (h : parseChars base k acc cs = .error j) :
    ∃ n, ∃ hn : n < cs.length, j = k + n ∧ digitValue cs[n] base = none ∧
      ∀ m (hm : m < n), digitValue cs[m] base ≠ none := by
  induction cs generalizing k acc with
  | nil => cases h
  | cons c cs ih =>
    rw [parseChars] at h
    cases hc : digitValue c base with
    | none =>
      obtain rfl : k = j := by simpa [hc] using h
      exact ⟨0, by simp, rfl, hc, by simp⟩
    | some d =>
      obtain ⟨n, hn, rfl, hbad, hgood⟩ := ih (by simpa [hc] using h)
      refine ⟨n + 1, by simpa using hn, by omega, hbad, fun m hm => ?_⟩
      cases m with
      | zero => simp [hc]
      | succ m => exact hgood m (by omega)

/-- The first character of the text that is no digit of the radix stands at index `k`. -/
def FirstBadAt (s : State) (base : BitVec 8) (k : Nat) : Prop :=
  k < s.tlen.val ∧ (¬ ∃ d, IsDigit base.toNat (tbRead s k) d) ∧ ∀ j < k, ∃ d, IsDigit base.toNat (tbRead s j) d

theorem parseChars_tbText_error {base : BitVec 8} {s : State} {k : Nat} {acc : Value}
    (h : parseChars base 0 acc (tbText s) = .error k) : FirstBadAt s base k := by
  obtain ⟨n, hn, rfl, hbad, hgood⟩ := parseChars_error h
  rw [Nat.zero_add]
  refine ⟨by simpa [tbText_length] using hn, digitValue_eq_none_iff.1 (by simpa [tbText] using hbad), fun j hj => ?_⟩
  by_contra hno
  exact hgood j hj (by simpa [tbText] using digitValue_eq_none_iff.2 hno)

/-- How PARSE ends, by what it puts into ERRIDX (46_text_codec.md R275). -/
inductive ParseEnding (c : CmdWord) (base : BitVec 8) (s t : State) : Prop where
  | success (h : CleanStatus s t)
  | badRadix (h : Recorded s t .outOfRange c 0)
  | emptyText (hlen : s.tlen.val = 0) (h : Recorded s t .invalidArgument c 0)
  | badCharacter (idx : BitVec 8) (hbad : FirstBadAt s base idx.toNat) (h : Recorded s t .invalidArgument c idx)

theorem execParse_ending {rd : Reg} {base : BitVec 8} {s t : State} (h : execParse rd base s = .next t) :
    ParseEnding (encode (.parse rd base)) base s t := by
  simp only [execParse, withRadix] at h
  split at h
  · split at h
    · next hlen => exact .emptyText (congrArg Fin.val hlen) (recorded_of_raiseError h)
    · split at h
      · next k hk =>
        have hbad := parseChars_tbText_error hk
        have hidx : (BitVec.ofNat 8 k).toNat = k := by
          have hlt := hbad.1
          have := s.tlen.isLt
          rw [BitVec.toNat_ofNat]
          omega
        exact .badCharacter _ (hidx.symm ▸ hbad) (recorded_of_raiseError h)
      · exact .success (clean_of_finish h)
  · exact .badRadix (recorded_of_raiseError h)

/-- The answer leaves the status registers clean, or puts 0 into ERRIDX. -/
def CleanOrIndexZero (s : State) (r : Result) : Prop := ∀ t, r = .next t → CleanStatus s t ∨ t.erridx = 0

theorem cleanOrIndexZero_complete {s s' : State} (hs : SameStatus s s') : CleanOrIndexZero s (complete s') :=
  fun _ h => .inl (hs.clean_of_complete h)

theorem cleanOrIndexZero_finish (rd : Reg) (x : Value) (s : State) : CleanOrIndexZero s (finish rd x s) :=
  cleanOrIndexZero_complete ⟨rfl, rfl, rfl⟩

theorem cleanOrIndexZero_finish2 (rd rd2 : Reg) (x x2 : Value) (s : State) :
    CleanOrIndexZero s (finish2 rd x rd2 x2 s) := cleanOrIndexZero_complete ⟨rfl, rfl, rfl⟩

theorem cleanOrIndexZero_tbPutText (bs : List Byte) (s : State) :
    CleanOrIndexZero s (complete (tbPutText bs s)) := cleanOrIndexZero_complete ⟨rfl, rfl, rfl⟩

theorem cleanOrIndexZero_raiseError (e : ErrorKind) (c : CmdWord) (s : State) :
    CleanOrIndexZero s (raiseError e c 0 s) := fun _ h => .inr (recorded_of_raiseError h).erridx

theorem CleanOrIndexZero.withRadix {c : CmdWord} {base : BitVec 8} {s : State} {r : Result}
    (h : CleanOrIndexZero s r) : CleanOrIndexZero s (withRadix c base s r) := by
  unfold Machine.withRadix
  split
  · exact h
  · exact cleanOrIndexZero_raiseError _ _ _

theorem CleanOrIndexZero.withDivisor {c : CmdWord} {d : Value} {s : State} {r : Result}
    (h : CleanOrIndexZero s r) : CleanOrIndexZero s (withDivisor c d s r) := by
  unfold Machine.withDivisor
  split
  · exact cleanOrIndexZero_raiseError _ _ _
  · exact h

/-- Every command but PARSE records its errors with index 0. -/
theorem exec_cleanOrIndexZero {i : Instr} (hi : ∀ rd base, i ≠ .parse rd base) (s : State) :
    CleanOrIndexZero s (exec i s) := by
  cases i with
  | parse rd base => exact absurd rfl (hi rd base)
  | divmod rd rd2 rs1 rs2 =>
    simp only [exec, execDivmod]
    split
    · exact cleanOrIndexZero_raiseError _ _ _
    · exact (cleanOrIndexZero_finish2 _ _ _ _ _).withDivisor
  | div rd rs1 rs2 => exact (cleanOrIndexZero_finish _ _ _).withDivisor
  | rem rd rs1 rs2 => exact (cleanOrIndexZero_finish _ _ _).withDivisor
  | dacc rd rs1 base aux =>
    refine CleanOrIndexZero.withRadix ?_
    split
    · exact cleanOrIndexZero_raiseError _ _ _
    · exact cleanOrIndexZero_finish _ _ _
  | ddiv rd rd2 rs1 base =>
    simp only [exec, execDdiv]
    split
    · exact cleanOrIndexZero_raiseError _ _ _
    · exact (cleanOrIndexZero_finish2 _ _ _ _ _).withRadix
  | format rs1 base mind => exact (cleanOrIndexZero_tbPutText _ _).withRadix
  | _ => exact cleanOrIndexZero_finish _ _ _

/-- A success leaves ERRIDX. -/
theorem issue_erridx_of_success {c : CmdWord} {s t : State} (h : issue c s = .next t)
    (h0 : statusCode t.status = 0) : t.erridx = s.erridx := by
  obtain hc | ⟨e, idx, hr⟩ := issue_clean_or_recorded h
  · exact hc.erridx
  · exact absurd (hr.code.symm.trans h0) e.code_ne_zero

/-- A PARSE that raises `InvalidArgument` on a nonempty text puts the index of the first bad character into ERRIDX. -/
theorem issue_parse_firstBadAt {c : CmdWord} {s t : State} (h : issue c s = .next t) (rd : Reg) (base : BitVec 8)
    (hp : Spells c (.parse rd base)) (h1 : statusCode t.status = 1) (hlen : 0 < s.tlen.val) :
    FirstBadAt s base t.erridx.toNat := by
  rw [issue_ok hp] at h
  cases execParse_ending h with
  | success hc => exact absurd (hc.code.symm.trans h1) (by decide)
  | badRadix hr => exact absurd (hr.code.symm.trans h1) (by decide)
  | emptyText h0 hr => omega
  | badCharacter idx hbad hr => exact hr.erridx ▸ hbad

/-- Every error but that one puts 0 into ERRIDX. -/
theorem issue_erridx_of_other_error {c : CmdWord} {s t : State} (h : issue c s = .next t)
    (h0 : statusCode t.status ≠ 0)
    (hother : ¬ ∃ rd base, Spells c (.parse rd base) ∧ statusCode t.status = 1 ∧ 0 < s.tlen.val) : t.erridx = 0 := by
  cases hd : decode c with
  | error err =>
    rw [issue_error hd] at h
    exact (recorded_of_raiseError h).erridx
  | ok i =>
    rw [issue_ok hd] at h
    by_cases hp : ∃ rd base, i = .parse rd base
    · obtain ⟨rd, base, rfl⟩ := hp
      cases execParse_ending h with
      | success hc => exact absurd hc.code h0
      | badRadix hr => exact hr.erridx
      | emptyText _ hr => exact hr.erridx
      | badCharacter idx hbad hr => exact absurd ⟨rd, base, hd, hr.code, Nat.zero_lt_of_lt hbad.1⟩ hother
    · have hends := exec_cleanOrIndexZero (fun rd base he => hp ⟨rd, base, he⟩) s t h
      exact hends.resolve_left fun hc => h0 hc.code

/-! ### The obligations of 10_state.md -/

/-- Settles O4: idle, nothing changes; otherwise the oldest host operation keeps the invariant. -/
theorem stepKeepsInvariant : Obligations.StepKeepsInvariant := by
  unfold Obligations.StepKeepsInvariant
  intro s t hs h
  cases hp : s.pending with
  | nil =>
    cases (step_idle hp).symm.trans h
    exact hs
  | cons op rest =>
    obtain ⟨t', ht, hkeep⟩ := performHostOp_next op (takeOp rest s)
    cases ht.symm.trans ((step_pending hp).symm.trans h)
    exact hkeep hs

/-- Settles O35: an issued word ends clean or with its own error, and of the other host operations only reset and the
acknowledgement, which leaves CODE, touch STATUS. -/
theorem codeIsWrittenByEveryCommandOnly : Obligations.CodeIsWrittenByEveryCommandOnly := by
  unfold Obligations.CodeIsWrittenByEveryCommandOnly
  intro s t op h
  rw [step_withOp] at h
  constructor
  · rintro c rfl
    obtain hc | ⟨e, idx, hr⟩ := issue_clean_or_recorded h
    · exact .inl ⟨hc.code, hc.faultcmd⟩
    · exact .inr ⟨e, hr.code, hr.faultcmd⟩
  · intro hissue hreset
    by_cases hack : ∃ w, op = .writeStatus w
    · obtain ⟨w, rfl⟩ := hack
      cases h
      exact statusCode_ackStatus w s.status
    · exact congrArg statusCode (performHostOp_sameStatus h hreset (fun w hw => hack ⟨w, hw⟩) hissue).status

/-- Settles O36: a recorded error sets the bit of its kind alone, and the host's acknowledgement clears what it writes
with 1. -/
theorem stickyBitLifecycle : Obligations.StickyBitLifecycle := by
  unfold Obligations.StickyBitLifecycle
  intro s t op e h
  rw [step_withOp] at h
  cases op with
  | reset => cases h; simp [sticky]
  | writeStatus w => cases h; exact sticky_ackStatus e w s.status
  | issue c =>
    obtain hc | ⟨f, idx, hr⟩ := issue_clean_or_recorded h
    · have hne : statusCode t.status ≠ e.code := hc.code ▸ e.code_ne_zero.symm
      simp [hc.sticky_eq, hne]
    · simp [hr.sticky_eq, hr.code, ErrorKind.code_inj]
  | _ => exact congrArg (sticky e) (performHostOp_sameStatus h nofun nofun nofun).status

/-- Settles O37: an issued word that ends clean leaves FAULTCMD and CODE 0; an error it records is one of that word, with
a code that is not 0. -/
theorem faultcmdHoldsTheFailedWord : Obligations.FaultcmdHoldsTheFailedWord := by
  unfold Obligations.FaultcmdHoldsTheFailedWord
  intro s t op h
  rw [step_withOp] at h
  cases op with
  | reset => cases h; rfl
  | writeStatus w => cases h; rfl
  | issue c =>
    obtain hc | ⟨e, idx, hr⟩ := issue_clean_or_recorded h
    · exact hc.faultcmd.trans (if_pos hc.code).symm
    · exact hr.faultcmd.trans (if_neg (hr.code ▸ e.code_ne_zero)).symm
  | _ => exact (performHostOp_sameStatus h nofun nofun nofun).faultcmd

/-- Settles O38: of an issued word, a success, a PARSE stopped on a character, and every other error in turn. -/
theorem erridxHoldsTheBadIndex : Obligations.ErridxHoldsTheBadIndex := by
  unfold Obligations.ErridxHoldsTheBadIndex
  intro s t op h
  rw [step_withOp] at h
  cases op with
  | reset => cases h; rfl
  | writeStatus w => cases h; rfl
  | issue c =>
    have hissue : issue c { s with reply := none } = .next t := h
    have hsuccess := issue_erridx_of_success hissue
    have hparse := issue_parse_firstBadAt hissue
    have hother := issue_erridx_of_other_error hissue
    exact ⟨hsuccess, hparse, hother⟩
  | _ => exact (performHostOp_sameStatus h nofun nofun nofun).erridx

/-- Settles O1. -/
theorem powerOnState : Obligations.PowerOnState := by
  unfold Obligations.PowerOnState
  exact ⟨readReg_reset, rfl, rfl, rfl, rfl⟩

theorem readReg_resetBlock (s : State) (r : Reg) : readReg (resetBlock s) r = Value.zero :=
  (readReg_congr rfl r).trans (readReg_reset r)

/-- Settles O2: the block is reset whatever it held, the draw is the next one and the host's list stays. -/
theorem hostResetGivesPowerOnState : Obligations.HostResetGivesPowerOnState := by
  unfold Obligations.HostResetGivesPowerOnState
  refine ⟨fun _ _ => rfl, fun s => ⟨resetBlock { s with reply := none }, step_withOp .reset s, ?_⟩⟩
  exact ⟨readReg_resetBlock _, rfl, rfl, rfl, rfl, fun _ _ => rfl, Nat.succ_ne_self s.tbEpoch, rfl⟩

/-- Settles O3. -/
theorem invariantHoldsAtReset : Obligations.InvariantHoldsAtReset := by
  unfold Obligations.InvariantHoldsAtReset
  have hlegal : StatusLegal 0 := ⟨by decide, by decide⟩
  exact ⟨hlegal, Memory.wf_nil⟩

end Sys2Proof.Machine

/-! ## 20_memory.md: who writes the storage spaces, and the host's access to them

One fact carries the family: a command answers with nothing changed outside its destinations and, if it is a FORMAT,
outside the text it puts. -/

namespace Sys2Proof.Machine

/-! ### What a command leaves alone -/

/-- What a command may have changed of the registers and the text: its destinations, or, for a FORMAT that completes,
the text it puts and no register (20_memory.md R83). -/
inductive Confined (i : Instr) (s t : State) : Prop where
  | registers (hregs : ∀ r, r ∉ destsOf i → readReg t r = readReg s r) (htext : SameText s t)
  | text (rs1 : Reg) (base mind : BitVec 8) (bs : List Byte) (hi : i = .format rs1 base mind) (h : WroteText s t bs)

theorem Confined.readReg_eq {i : Instr} {s t : State} {r : Reg} (h : Confined i s t) (hr : r ∉ destsOf i) :
    readReg t r = readReg s r := by
  cases h with
  | registers hregs _ => exact hregs r hr
  | text _ _ _ _ _ h => exact h.regs r

/-- The answer, where it is a next state, is confined to what the command may change. -/
def AnswersConfined (i : Instr) (s : State) (r : Result) : Prop := ∀ t, r = .next t → Confined i s t

theorem answersConfined_finish {i : Instr} {rd : Reg} (hd : rd ∈ destsOf i) (x : Value) (s : State) :
    AnswersConfined i s (finish rd x s) := by
  intro t h
  obtain ⟨t', ht, hw⟩ := finish_wrote rd x s
  cases ht.symm.trans h
  exact .registers (fun r hr => hw.others r fun he => hr (he ▸ hd)) hw.text

theorem answersConfined_finish2 {i : Instr} {rd rd2 : Reg} (hne : rd ≠ rd2) (hd : rd ∈ destsOf i)
    (hd2 : rd2 ∈ destsOf i) (x x2 : Value) (s : State) : AnswersConfined i s (finish2 rd x rd2 x2 s) := by
  intro t h
  obtain ⟨t', ht, hw⟩ := finish2_wrote hne x x2 s
  cases ht.symm.trans h
  exact .registers (fun r hr => hw.others r (fun he => hr (he ▸ hd)) fun he => hr (he ▸ hd2)) hw.text

theorem answersConfined_raiseError (i : Instr) (e : ErrorKind) (c : CmdWord) (idx : BitVec 8) (s : State) :
    AnswersConfined i s (raiseError e c idx s) := by
  intro t h
  have hr := recorded_of_raiseError h
  exact .registers (fun r _ => hr.regs r) hr.text

theorem answersConfined_format (rs1 : Reg) (base mind : BitVec 8) {bs : List Byte} (hlen : bs.length ≤ 256)
    (s : State) : AnswersConfined (.format rs1 base mind) s (complete (tbPutText bs s)) := by
  intro t h
  obtain ⟨t', ht, hw⟩ := complete_tbPutText_wrote hlen s
  cases ht.symm.trans h
  exact .text rs1 base mind bs rfl hw

theorem AnswersConfined.withRadix {i : Instr} {c : CmdWord} {base : BitVec 8} {s : State} {r : Result}
    (h : AnswersConfined i s r) : AnswersConfined i s (withRadix c base s r) := by
  unfold Machine.withRadix
  split
  · exact h
  · exact answersConfined_raiseError _ _ _ _ _

theorem AnswersConfined.withDivisor {i : Instr} {c : CmdWord} {d : Value} {s : State} {r : Result}
    (h : AnswersConfined i s r) : AnswersConfined i s (withDivisor c d s r) := by
  unfold Machine.withDivisor
  split
  · exact answersConfined_raiseError _ _ _ _ _
  · exact h

/-- Every command is confined to its own destinations and, for FORMAT, its text. -/
theorem exec_answersConfined (i : Instr) (s : State) : AnswersConfined i s (exec i s) := by
  have hfst (rd rd2 : Reg) : rd ∈ [rd, rd2] := List.mem_cons_self
  have hsnd (rd rd2 : Reg) : rd2 ∈ [rd, rd2] := List.mem_cons_of_mem _ List.mem_cons_self
  cases i with
  | divmod rd rd2 rs1 rs2 =>
    simp only [exec, execDivmod]
    split
    · exact answersConfined_raiseError _ _ _ _ _
    · next hne => exact (answersConfined_finish2 hne (hfst _ _) (hsnd _ _) _ _ _).withDivisor
  | div rd rs1 rs2 => exact (answersConfined_finish List.mem_cons_self _ _).withDivisor
  | rem rd rs1 rs2 => exact (answersConfined_finish List.mem_cons_self _ _).withDivisor
  | dacc rd rs1 base aux =>
    refine AnswersConfined.withRadix ?_
    split
    · exact answersConfined_raiseError _ _ _ _ _
    · exact answersConfined_finish List.mem_cons_self _ _
  | ddiv rd rd2 rs1 base =>
    simp only [exec, execDdiv]
    split
    · exact answersConfined_raiseError _ _ _ _ _
    · next hne => exact (answersConfined_finish2 hne (hfst _ _) (hsnd _ _) _ _ _).withRadix
  | parse rd base =>
    refine AnswersConfined.withRadix ?_
    split
    · exact answersConfined_raiseError _ _ _ _ _
    · split
      · exact answersConfined_raiseError _ _ _ _ _
      · exact answersConfined_finish List.mem_cons_self _ _
  | format rs1 base mind =>
    have hlen : (formatText (readReg s rs1) base mind).length ≤ 256 :=
      (formatText_length_le _ _ _).trans (by decide)
    exact (answersConfined_format rs1 base mind hlen s).withRadix
  | _ => exact answersConfined_finish List.mem_cons_self _ _

/-- An issued word that spells a command is confined to that command; any other changes no register and no text. -/
theorem issue_confined {c : CmdWord} {s t : State} (h : issue c s = .next t) :
    (∃ i, Spells c i ∧ Confined i s t) ∨ (SameRegs s t ∧ SameText s t) := by
  cases hd : decode c with
  | ok i =>
    rw [issue_ok hd] at h
    exact .inl ⟨i, hd, exec_answersConfined i s t h⟩
  | error err =>
    rw [issue_error hd] at h
    have hr := recorded_of_raiseError h
    exact .inr ⟨hr.regs, hr.text⟩

/-- A register that an issued word changes is a destination of the command it spells. -/
theorem issue_changed_register {c : CmdWord} {s t : State} {r : Reg} (h : issue c s = .next t)
    (hne : readReg t r ≠ readReg s r) : ∃ i, Spells c i ∧ r ∈ destsOf i := by
  obtain ⟨i, hi, hc⟩ | ⟨hregs, -⟩ := issue_confined h
  · exact ⟨i, hi, by_contra fun hr => hne (hc.readReg_eq hr)⟩
  · exact absurd (hregs r) hne

/-- An issued word leaves the text, or it is a FORMAT that put one. -/
theorem issue_sameText_or_wroteText {c : CmdWord} {s t : State} (h : issue c s = .next t) :
    SameText s t ∨ ∃ rs1 base mind bs, Spells c (.format rs1 base mind) ∧ WroteText s t bs := by
  obtain ⟨i, hi, hc⟩ | ⟨-, htext⟩ := issue_confined h
  · cases hc with
    | registers _ htext => exact .inl htext
    | text rs1 base mind bs he hw => exact .inr ⟨rs1, base, mind, bs, he ▸ hi, hw⟩
  · exact .inl htext

/-- A byte that an issued word changes lies inside the text of a FORMAT. -/
theorem issue_changed_byte {c : CmdWord} {s t : State} {k : Nat} (h : issue c s = .next t)
    (hne : tbRead t k ≠ tbRead s k) : ∃ rs1 base mind, Spells c (.format rs1 base mind) ∧ k < t.tlen.val := by
  obtain hsame | ⟨rs1, base, mind, bs, hf, hw⟩ := issue_sameText_or_wroteText h
  · exact absurd (hsame.bytes k) hne
  · refine ⟨rs1, base, mind, hf, by_contra fun hk => hne (hw.past k ?_)⟩
    rw [← hw.tlen]
    exact Nat.not_lt.1 hk

/-- An issued word that changes TLEN is a FORMAT. -/
theorem issue_changed_tlen {c : CmdWord} {s t : State} (h : issue c s = .next t) (hne : t.tlen ≠ s.tlen) :
    ∃ rs1 base mind, Spells c (.format rs1 base mind) := by
  obtain hsame | ⟨rs1, base, mind, _, hf, -⟩ := issue_sameText_or_wroteText h
  · exact absurd hsame.tlen hne
  · exact ⟨rs1, base, mind, hf⟩

/-! ### Which host operation wrote what differs -/

/-- A register that differs after a host operation was written by it, is a destination of the command it issued, or was
reset. -/
theorem performHostOp_changed_register {op : HostOp} {s t : State} {r : Reg} (h : performHostOp op s = .next t)
    (hne : readReg t r ≠ readReg s r) : op = .reset ∨ (∃ hi lo, op = .writeReg r hi lo) ∨
      ∃ c i, op = .issue c ∧ Spells c i ∧ r ∈ destsOf i := by
  cases op with
  | reset => exact .inl rfl
  | writeReg i hi lo =>
    cases h
    obtain rfl : i = r := by_contra fun hir => hne (readReg_writeReg_ne hir ⟨hi, lo⟩ s)
    exact .inr (.inl ⟨hi, lo, rfl⟩)
  | issue c =>
    obtain ⟨i, hi, hr⟩ := issue_changed_register h hne
    exact .inr (.inr ⟨c, i, rfl, hi, hr⟩)
  | _ => cases h; exact absurd rfl hne

/-- A text byte that differs after a host operation was written by it, put by a FORMAT, or drawn afresh by reset. -/
theorem performHostOp_changed_byte {op : HostOp} {s t : State} {k : Nat} (h : performHostOp op s = .next t)
    (hne : tbRead t k ≠ tbRead s k) : op = .reset ∨ (∃ j b, op = .writeTb j b ∧ j.toNat = k) ∨
      ∃ c rs1 base mind, op = .issue c ∧ Spells c (.format rs1 base mind) ∧ k < t.tlen.val := by
  cases op with
  | reset => exact .inl rfl
  | writeTb j b =>
    cases h
    have hj : j.toNat = k := by_contra fun hjk => hne ((tbRead_tbWrite s _ _ b).trans (if_neg hjk))
    exact .inr (.inl ⟨j, b, rfl, hj⟩)
  | issue c =>
    obtain ⟨rs1, base, mind, hf, hk⟩ := issue_changed_byte h hne
    exact .inr (.inr ⟨c, rs1, base, mind, rfl, hf, hk⟩)
  | _ => cases h; exact absurd rfl hne

/-- A TLEN that differs after a host operation was written by it, set by a FORMAT, or reset. -/
theorem performHostOp_changed_tlen {op : HostOp} {s t : State} (h : performHostOp op s = .next t)
    (hne : t.tlen ≠ s.tlen) : op = .reset ∨ (∃ n, op = .writeTlen n) ∨
      ∃ c rs1 base mind, op = .issue c ∧ Spells c (.format rs1 base mind) := by
  cases op with
  | reset => exact .inl rfl
  | writeTlen n => exact .inr (.inl ⟨n, rfl⟩)
  | issue c =>
    obtain ⟨rs1, base, mind, hf⟩ := issue_changed_tlen h hne
    exact .inr (.inr ⟨c, rs1, base, mind, rfl, hf⟩)
  | _ => cases h; exact absurd rfl hne

/-! ### The obligations of 20_memory.md -/

/-- Settles O39: a step performs the host operation, whose writes to registers are these three. -/
theorem registerWriters : Obligations.RegisterWriters := by
  unfold Obligations.RegisterWriters
  intro s t op r h hne
  rw [step_withOp] at h
  exact performHostOp_changed_register h hne

/-- Settles O40: the bytes and TLEN each have their own writers. -/
theorem textWriters : Obligations.TextWriters := by
  unfold Obligations.TextWriters
  intro s t op h
  rw [step_withOp] at h
  exact ⟨fun k hne => performHostOp_changed_byte h hne, fun hne => performHostOp_changed_tlen h hne⟩

/-- Settles O7: the issued word is taken from the list and `issue` runs what it decodes to. -/
theorem stepRunsTheIssuedCommand : Obligations.StepRunsTheIssuedCommand := by
  unfold Obligations.StepRunsTheIssuedCommand
  constructor
  · intro s c rest i hp hi
    rw [step_pending hp]
    exact issue_ok hi (takeOp rest s)
  · intro s w i hi
    rw [withFetchWord_eq, step_withOp]
    exact issue_ok hi { s with reply := none }

/-- Settles O42: a register write shows in the register it names and nowhere else. -/
theorem hostRegisterAccess : Obligations.HostRegisterAccess := by
  unfold Obligations.HostRegisterAccess
  intro s i hi lo
  refine ⟨⟨writeReg i ⟨hi, lo⟩ { s with reply := none }, step_withOp _ s, ?_⟩, step_withOp _ s⟩
  have hothers (r : Reg) (hr : r ≠ i) : readReg (writeReg i ⟨hi, lo⟩ { s with reply := none }) r = readReg s r :=
    readReg_writeReg_ne hr.symm _ _
  exact ⟨readReg_writeReg_self _ _ _, hothers, rfl, rfl, rfl, rfl, fun _ => rfl⟩

/-- Settles O43: a byte write shows at the index it names and nowhere else. -/
theorem hostTextAccess : Obligations.HostTextAccess := by
  unfold Obligations.HostTextAccess
  intro s k b
  refine ⟨⟨tbWrite k.toNat b { s with reply := none }, step_withOp _ s, ?_⟩, step_withOp _ s⟩
  have hread (j : Nat) : tbRead (tbWrite k.toNat b { s with reply := none }) j =
      if k.toNat = j then b else tbRead s j := tbRead_tbWrite _ _ _ _
  exact ⟨(hread _).trans (if_pos rfl), fun j hj => (hread j).trans (if_neg hj.symm), rfl, fun _ => rfl, rfl, rfl, rfl⟩

/-- Settles O44: TLEN takes `min(n, 256)` by its own conversion. -/
theorem hostLengthAccess : Obligations.HostLengthAccess := by
  unfold Obligations.HostLengthAccess
  intro s n
  refine ⟨⟨{ s with reply := none, tlen := tlenOf n.toNat }, step_withOp _ s, ?_⟩, step_withOp _ s⟩
  exact ⟨rfl, fun _ => rfl, rfl, rfl, rfl, fun _ => rfl⟩

/-- Settles O45: the acknowledgement changes STATUS alone, bit by bit as `getLsbD_ackStatus` says. -/
theorem hostStatusAccess : Obligations.HostStatusAccess := by
  unfold Obligations.HostStatusAccess
  intro s w
  refine ⟨⟨acknowledge w { s with reply := none }, step_withOp _ s, fun k => ?_, ?_⟩, step_withOp _ s, step_withOp _ s,
    step_withOp _ s⟩
  · rw [acknowledge_status, getLsbD_ackStatus]
    by_cases hk : 4 ≤ k ∧ k ≤ 7
    · cases hw : w.getLsbD k <;> simp [hk]
    · have hkeep : ¬ (4 ≤ k ∧ k ≤ 7 ∧ w.getLsbD k = true) := fun h => hk ⟨h.1, h.2.1⟩
      simp [hk, if_neg hkeep]
  · exact ⟨fun _ => rfl, ⟨rfl, fun _ => rfl⟩, rfl, rfl⟩

end Sys2Proof.Machine

/-! ## 30_encoding.md: the opcode map, which words are commands, and the pseudo-instructions

Decoding a word is a question about its row: one equation of `decode` for each of the four ways a word can fare (R119)
carries the family. -/

namespace Sys2Proof

/-! ### The rows of the opcode map (R105) -/

theorem opcodeTable_ops_pairwise_ne : (opcodeTable.map Row.op).Pairwise (· ≠ ·) := by decide

/-- Opcodes are distinct, so looking up a row's opcode finds that row. -/
theorem rowOf_eq_some {r : Row} (hr : r ∈ opcodeTable) : rowOf r.op = some r := by
  have hpw := List.pairwise_map.1 opcodeTable_ops_pairwise_ne
  obtain ⟨before, rest, hsplit⟩ := List.append_of_mem hr
  rw [hsplit, List.pairwise_append] at hpw
  obtain ⟨-, -, hcross⟩ := hpw
  rw [rowOf, List.find?_eq_some_iff_append]
  exact ⟨beq_self_eq_true _, before, rest, hsplit, fun q hq => by simpa using hcross q hq r List.mem_cons_self⟩

theorem rowOf_eq_none {op : BitVec 8} (h : ∀ r ∈ opcodeTable, r.op ≠ op) : rowOf op = none :=
  List.find?_eq_none.2 fun r hr => by simpa using h r hr

/-- A row's command is well formed unless the row is DIVMOD or DDIV and the word's two destinations agree (R117). -/
theorem wf_build_iff {r : Row} (hr : r ∈ opcodeTable) (c : CmdWord) :
    (r.build c).wf = true ↔ ¬ (r.op = 0x38 ∧ fRd c = fRd2 c) ∧ ¬ (r.op = 0x41 ∧ fRd c = fRd2X c) := by
  revert r
  simp [opcodeTable, Config.rotate, rowsRepresentation, rowsBitwise, rowsRotate, rowsAdditive, rowsMultiply,
    rowsDivide, rowsText, Instr.wf]

/-- Two words put together of parts of the same widths agree exactly when the parts do. -/
theorem append_eq_append_iff {a b : Nat} {x x' : BitVec a} {y y' : BitVec b} :
    x ++ y = x' ++ y' ↔ x = x' ∧ y = y' := by
  refine ⟨fun h => ⟨?_, ?_⟩, fun ⟨hx, hy⟩ => hx ▸ hy ▸ rfl⟩
  · simpa only [BitVec.extractLsb'_append_eq_left] using congrArg (BitVec.extractLsb' b a) h
  · simpa only [BitVec.extractLsb'_append_eq_right] using congrArg (BitVec.extractLsb' 0 b) h

/-- The must-be-zero bits of a format all lie below the opcode (R102). -/
theorem mustBeZero_eq_append (f : Format) : mustBeZero f = 0#8 ++ (mustBeZero f).extractLsb' 0 24 := by
  cases f <;> rfl

theorem mask_eq_append (r : Row) : r.mask = BitVec.allOnes 8 ++ (mustBeZero r.format).extractLsb' 0 24 := by
  rw [Row.mask, mustBeZero_eq_append, show (0xFF000000 : CmdWord) = BitVec.allOnes 8 ++ 0#24 from rfl,
    BitVec.or_append, BitVec.or_zero, BitVec.zero_or, BitVec.extractLsb'_append_eq_right]

/-- A row's `match`/`mask` pair tests the opcode and the must-be-zero bits (R105). -/
theorem and_mask_eq_matchWord_iff (r : Row) (c : CmdWord) :
    c &&& r.mask = r.matchWord ↔ r.op = fOp c ∧ c &&& mustBeZero r.format = 0 := by
  have hc : c = fOp c ++ c.extractLsb' 0 24 := by rw [fOp, extract_append c 0 24, extract_self]
  have hmask : c &&& r.mask = fOp c ++ (c &&& mustBeZero r.format).extractLsb' 0 24 := by
    rw [mask_eq_append, BitVec.extractLsb'_and]
    conv_lhs => rw [hc, BitVec.and_append, BitVec.and_allOnes]
  have hmbz : c &&& mustBeZero r.format = 0#8 ++ (c &&& mustBeZero r.format).extractLsb' 0 24 := by
    conv_lhs => rw [hc, mustBeZero_eq_append, BitVec.and_append, BitVec.and_zero]
    rw [BitVec.extractLsb'_and]
  rw [hmask, Row.matchWord, append_eq_append_iff, hmbz, BitVec.extractLsb'_append_eq_right, eq_comm (a := fOp c),
    show (0 : CmdWord) = 0#8 ++ 0#24 from rfl, append_eq_append_iff]
  exact and_congr_right fun _ => (and_iff_right rfl).symm

/-! ### How a word fares in the decoder (R119) -/

theorem decode_of_unassigned {c : CmdWord} (h : ∀ r ∈ opcodeTable, r.op ≠ fOp c) :
    decode c = .error .unassignedOpcode := by
  simp only [decode, rowOf_eq_none h]

section Assigned

variable {r : Row} {c : CmdWord} (hr : r ∈ opcodeTable) (hop : r.op = fOp c)
include hr hop

theorem decode_of_row : decode c = if c &&& mustBeZero r.format ≠ 0 then .error .mustBeZero
    else if (r.build c).wf then .ok (r.build c) else .error .sameDestination := by
  simp only [decode, ← hop, rowOf_eq_some hr]

theorem decode_of_mustBeZero (hm : c &&& mustBeZero r.format ≠ 0) : decode c = .error .mustBeZero :=
  (decode_of_row hr hop).trans (if_pos hm)

theorem decode_of_sameDestination (hm : c &&& mustBeZero r.format = 0) (hw : (r.build c).wf = false) :
    decode c = .error .sameDestination := by
  simp [decode_of_row hr hop, hm, hw]

theorem decode_of_wf (hm : c &&& mustBeZero r.format = 0) (hw : (r.build c).wf = true) :
    decode c = .ok (r.build c) := by
  simp [decode_of_row hr hop, hm, hw]

end Assigned

theorem decode_divmod_sameDestination {c : CmdWord} (hop : fOp c = 0x38) (hm : c &&& mustBeZero .R4 = 0)
    (hd : fRd c = fRd2 c) : decode c = .error .sameDestination := by
  have hr : (⟨0x38, "DIVMOD", .R4, fun c => .divmod (fRd c) (fRd2 c) (fRs1 c) (fRs2 c)⟩ : Row) ∈ opcodeTable := by
    simp [opcodeTable, rowsDivide]
  exact decode_of_sameDestination hr hop.symm hm (by simp [Instr.wf, hd])

theorem decode_ddiv_sameDestination {c : CmdWord} (hop : fOp c = 0x41) (hm : c &&& mustBeZero .XD = 0)
    (hd : fRd c = fRd2X c) : decode c = .error .sameDestination := by
  have hr : (⟨0x41, "DDIV", .XD, fun c => .ddiv (fRd c) (fRd2X c) (fRs1 c) (fBase c)⟩ : Row) ∈ opcodeTable := by
    simp [opcodeTable, rowsText]
  exact decode_of_sameDestination hr hop.symm hm (by simp [Instr.wf, hd])

/-- Settles O10: a word decodes exactly when its row is in the map, passes the mask, and builds a well-formed
command. -/
theorem decodeAcceptsExactlyTheTable : Obligations.DecodeAcceptsExactlyTheTable := by
  unfold Obligations.DecodeAcceptsExactlyTheTable
  intro c
  constructor
  · rintro ⟨i, hi⟩
    obtain ⟨r, hr, hop, hm, rfl, hw⟩ := decode_ok hi
    have hne := (wf_build_iff hr c).1 hw
    rw [hop] at hne
    exact ⟨⟨r, hr, (and_mask_eq_matchWord_iff r c).2 ⟨hop, hm⟩⟩, hne⟩
  · rintro ⟨⟨r, hr, hmatch⟩, hne⟩
    obtain ⟨hop, hm⟩ := (and_mask_eq_matchWord_iff r c).1 hmatch
    have hw : (r.build c).wf = true := (wf_build_iff hr c).2 (hop ▸ hne)
    exact ⟨r.build c, decode_of_wf hr hop hm hw⟩

end Sys2Proof

namespace Sys2Proof.Machine

/-! ### Issuing a word that decode rejects (R115 to R117, R307) -/

theorem issueIsIllegal_of_decode_error {c : CmdWord} {e : DecodeError} (h : decode c = .error e) (s : State) :
    IssueIsIllegal c s := by
  obtain ⟨t, ht, hr⟩ := raiseError_recorded .illegalCommand c 0 { s with reply := none }
  exact ⟨t, (step_withOp _ s).trans ((issue_error h _).trans ht), hr⟩

theorem assignedOpcodes_eq : assignedOpcodes = opcodeTable.map fun r => r.op.toNat := by decide

theorem op_ne_of_not_mem_assignedOpcodes {op : BitVec 8} (h : op.toNat ∉ assignedOpcodes) :
    ∀ r ∈ opcodeTable, r.op ≠ op := by
  rintro r hr rfl
  exact h (assignedOpcodes_eq ▸ List.mem_map_of_mem hr)

/-- Settles O11: each cause is one equation of `decode`, and `issue` records any word with such an equation. -/
theorem illegalWordsAreRejectedByCause : Obligations.IllegalWordsAreRejectedByCause := by
  unfold Obligations.IllegalWordsAreRejectedByCause
  intro s c
  have hissue {e : DecodeError} (h : decode c = .error e) : decode c = .error e ∧ IssueIsIllegal c s :=
    ⟨h, issueIsIllegal_of_decode_error h s⟩
  refine ⟨fun hop => ?_, fun r hr hop hm => ?_, fun hop hm hd => ?_, fun hop hm hd => ?_⟩
  · exact hissue (decode_of_unassigned (op_ne_of_not_mem_assignedOpcodes hop))
  · exact hissue (decode_of_mustBeZero hr hop.symm hm)
  · exact hissue (decode_divmod_sameDestination hop hm hd)
  · exact hissue (decode_ddiv_sameDestination hop hm hd)

/-! ### The terms that no word decodes to (R117) -/

theorem decode_encode_divmod_same (rd rs1 rs2 : Reg) :
    decode (encode (.divmod rd rd rs1 rs2)) = .error .sameDestination := by
  obtain ⟨hop, hrd, -, -, hrd2, hz⟩ := fields_encR4 0x38 rd rd rs1 rs2
  exact decode_divmod_sameDestination hop ((mbz_R4 _).2 hz) (hrd.trans hrd2.symm)

theorem decode_encode_ddiv_same (rd rs1 : Reg) (base : BitVec 8) :
    decode (encode (.ddiv rd rd rs1 base)) = .error .sameDestination := by
  obtain ⟨hop, hrd, -, -, hrd2, hz⟩ := fields_encXD 0x41 rd rd rs1 base
  exact decode_ddiv_sameDestination hop ((mbz_XD _).2 hz) (hrd.trans hrd2.symm)

theorem exec_divmod_same (rd rs1 rs2 : Reg) (s : State) :
    exec (.divmod rd rd rs1 rs2) s = raiseError .illegalCommand (encode (.divmod rd rd rs1 rs2)) 0 s :=
  if_pos rfl

theorem exec_ddiv_same (rd rs1 : Reg) (base : BitVec 8) (s : State) :
    exec (.ddiv rd rd rs1 base) s = raiseError .illegalCommand (encode (.ddiv rd rd rs1 base)) 0 s :=
  if_pos rfl

/-- Settles O27: both the term and its word raise `IllegalCommand` with that word. -/
theorem sameDestinationIsIllegal : Obligations.SameDestinationIsIllegal := by
  unfold Obligations.SameDestinationIsIllegal
  intro s rd rs1 rs2 base
  have hdivmod := exec_divmod_same rd rs1 rs2 s
  have hddiv := exec_ddiv_same rd rs1 base s
  refine ⟨?_, ?_, ?_, ?_⟩
  · rw [Raises, hdivmod]
    exact raiseError_recorded _ _ _ s
  · rw [Raises, hddiv]
    exact raiseError_recorded _ _ _ s
  · rw [hdivmod, issue_error (decode_encode_divmod_same rd rs1 rs2)]
  · rw [hddiv, issue_error (decode_encode_ddiv_same rd rs1 base)]

/-! ### Pseudo-instructions (R122) -/

theorem runInstrs_cons_next {i : Instr} {is : List Instr} {s t : State} (h : exec i s = .next t) :
    runInstrs (i :: is) s = runInstrs is t := by
  simp [runInstrs, h]

/-- A run of one command that completes with one result. -/
theorem CompletesWith.runInstrs_singleton {i : Instr} {s : State} {rd : Reg} {x : Value}
    (h : CompletesWith i s rd x) : ∃ t, runInstrs [i] s = .next t ∧ readReg t rd = x := by
  obtain ⟨t, ht, hw⟩ := h
  exact ⟨t, runInstrs_cons_next ht, hw.dest⟩

theorem zextLow_64 (a : Value) : zextLow 64 a = ⟨0, a.low⟩ := by
  simp [zextLow, Value.ofLow]

theorem val_not128 (a : Value) : (not128 a).val = 2 ^ 128 - 1 - a.val := by
  have hh := a.high.isLt
  have hl := a.low.isLt
  simp only [not128, Value.val, BitVec.toNat_not]
  omega

/-- INC is addition of 1 modulo 2^128: the carry goes into the high limb exactly when the low limb wraps (R204). -/
theorem inc128_eq_ofNat (a : Value) : inc128 a = Value.ofNat (a.val + 1) := by
  apply Value.eq_ofNat
  have hh := a.high.isLt
  have hl := a.low.isLt
  unfold inc128 Value.val
  by_cases hwrap : a.low + 1#64 = 0#64
  · have hlow : a.low.toNat = 2 ^ 64 - 1 := by bv_omega
    simp only [if_pos hwrap, BitVec.toNat_add, BitVec.ofNat_eq_ofNat, BitVec.toNat_ofNat, hlow]
    omega
  · have hlow : a.low.toNat < 2 ^ 64 - 1 := by bv_omega
    simp only [if_neg hwrap, BitVec.toNat_add, BitVec.ofNat_eq_ofNat, BitVec.toNat_ofNat]
    omega

/-- Complement and increment negate modulo 2^128. -/
theorem inc128_not128 (a : Value) : inc128 (not128 a) = Value.ofNat (2 ^ 128 - a.val) := by
  have ha := a.val_lt
  rw [inc128_eq_ofNat, val_not128]
  congr 1
  omega

/-- Settles O60: the expansions are the definitions; NEG is a complement and an increment of its own destination. -/
theorem pseudoInstructionResults : Obligations.PseudoInstructionResults := by
  unfold Obligations.PseudoInstructionResults
  intro s d r base
  have hgetlo : CompletesWith (.zext64 d r) s d ⟨0, (readReg s r).low⟩ :=
    zextLow_64 (readReg s r) ▸ finish_wrote d _ s
  have hclr : CompletesWith (.li d 0) s d Value.zero := finish_wrote d _ s
  obtain ⟨t, ht, hnot⟩ : CompletesWith (.not d r) s d (not128 (readReg s r)) := finish_wrote d _ s
  obtain ⟨u, hu, hinc⟩ : CompletesWith (.inc d d) t d (inc128 (readReg t d)) := finish_wrote d _ t
  have hneg : runInstrs (Asm.neg d r) s = .next u := (runInstrs_cons_next ht).trans (runInstrs_cons_next hu)
  have hdest : readReg u d = Value.ofNat (2 ^ 128 - (readReg s r).val) := by
    rw [hinc.dest, hnot.dest, inc128_not128]
  have hothers (q : Reg) (hq : q ≠ d) : readReg u q = readReg s q := (hinc.others q hq).trans (hnot.others q hq)
  exact ⟨⟨rfl, hgetlo.runInstrs_singleton⟩, ⟨rfl, hclr.runInstrs_singleton⟩, ⟨rfl, u, hneg, hdest, hothers⟩, rfl, rfl,
    rfl, rfl⟩

/-! ### The opcode map and the worked encodings (R105, R123) -/

/-- Settles O13: the map is the spec's table, row by row, and its opcodes differ. -/
theorem opcodeMapIsTheSpecsTable : Obligations.OpcodeMapIsTheSpecsTable := by
  unfold Obligations.OpcodeMapIsTheSpecsTable
  exact ⟨rfl, opcodeTable_ops_pairwise_ne⟩

/-- Settles O14: decoding each word computes. -/
theorem workedEncodingsDecode : Obligations.WorkedEncodingsDecode := by
  unfold Obligations.WorkedEncodingsDecode
  exact ⟨rfl, rfl, rfl, rfl, rfl, rfl, rfl, rfl, rfl⟩

end Sys2Proof.Machine

/-! ## 41_representation.md: moves, extensions, CNZ, and what a command's results depend on

Each of these commands is `finish` of one value, so its result is an equation about values. That a command reads nothing
but its sources is a comparison of two runs, ending by ending. -/

namespace Sys2Proof.Machine

/-! ### The word and the answer of a command that ends in one register write -/

/-- A well-formed command whose encoded word carries its fields is what that word spells (R119). -/
theorem spells_of_encode {i : Instr} {c : CmdWord} (h : Laws.EncodedFields.Statement i) (hw : i.wf = true)
    (hc : encode i = c) : Spells c i := by
  obtain ⟨r, hr, hm, hb⟩ := h
  subst hc
  simp [Spells, decode, hr, hm, hb, hw]

theorem completesWith_of_finish {i : Instr} {s : State} {rd : Reg} {x y : Value} (h : exec i s = finish rd x s)
    (hxy : x = y) : CompletesWith i s rd y := by
  rw [CompletesWith, h, ← hxy]
  exact finish_wrote rd x s

/-! ### The values they write, as numbers -/

theorem immValue_eq_ofNat (imm16 : BitVec 16) : immValue imm16 = Value.ofNat imm16.toNat := by
  apply Value.eq_ofNat
  have := imm16.isLt
  rw [immValue, Value.val_ofLow, BitVec.toNat_setWidth]
  omega

/-- The low bits of a value, up to 64 of them, are those of its low limb. -/
theorem val_mod_two_pow {n : Nat} (hn : n ≤ 64) (a : Value) : a.val % 2 ^ n = a.low.toNat % 2 ^ n := by
  have hdvd : 2 ^ n ∣ a.high.toNat * 2 ^ 64 := Dvd.dvd.mul_left (Nat.pow_dvd_pow 2 hn) _
  rw [Value.val, Nat.add_mod, Nat.mod_eq_zero_of_dvd hdvd, Nat.zero_add, Nat.mod_mod]

/-- Zero extension is reduction modulo `2^n` (R145 to R148). -/
theorem zextLow_eq_ofNat {n : Nat} (hn : n ≤ 64) (a : Value) : zextLow n a = Value.ofNat (a.val % 2 ^ n) := by
  have hlt : a.low.toNat % 2 ^ n < 2 ^ 64 := (Nat.mod_le _ _).trans_lt a.low.isLt
  apply Value.eq_ofNat
  rw [val_mod_two_pow hn, zextLow, Value.val_ofLow, BitVec.toNat_setWidth, BitVec.toNat_setWidth]
  omega

/-- Sign extension reads the low `n` bits as a two's-complement number: the sign bit is set exactly when they reach
`2^(n-1)`, and then the bits above stand for `2^128 - 2^n` (R149 to R152). -/
theorem sextLow_eq_signedValue {n : Nat} (hn : n ≤ 64) (a : Value) : sextLow n a = signedValue n a := by
  have hlow : (a.low.setWidth n).toNat = a.val % 2 ^ n := by rw [BitVec.toNat_setWidth, val_mod_two_pow hn]
  have hpow : 2 ^ n ≤ 2 ^ 64 := Nat.pow_le_pow_right (by decide) hn
  have hlt : a.val % 2 ^ n < 2 ^ n := Nat.mod_lt _ (Nat.two_pow_pos n)
  have hval : (sextLow n a).val = a.val % 2 ^ n + if 2 ^ (n - 1) ≤ a.val % 2 ^ n then 2 ^ 128 - 2 ^ n else 0 := by
    rw [sextLow, Value.val_ofBits, BitVec.toNat_signExtend, BitVec.toNat_setWidth, BitVec.msb_eq_decide, hlow,
      Nat.mod_eq_of_lt (by omega)]
    simp
  unfold signedValue
  split
  · next hpos =>
    apply Value.eq_ofNat
    rw [hval, if_neg (by omega)]
    omega
  · next hneg =>
    apply Value.eq_ofNat
    rw [hval, if_pos (by omega)]
    omega

/-- CNZ tests both limbs, so it tests the number (R153). -/
theorem boolValue_ne_zero_eq_ofNat (a : Value) :
    boolValue (a.high != 0 || a.low != 0) = Value.ofNat (if a.val = 0 then 0 else 1) := by
  have hzero : a.val = 0 ↔ a.high = 0 ∧ a.low = 0 := Value.val_eq_zero.trans Value.ext_iff'
  by_cases h : a.val = 0
  · obtain ⟨hhigh, hlow⟩ := hzero.1 h
    rw [if_pos h, hhigh, hlow]
    rfl
  · have hlimb : (a.high != 0 || a.low != 0) = true := by
      simpa [imp_iff_not_or] using mt hzero.2 h
    rw [if_neg h, hlimb]
    rfl

/-! ### Two runs of a command from states that agree on what it names -/

/-- The two states agree on the registers the command names and, for a PARSE, on TLEN and the text. -/
structure AgreesFor (i : Instr) (s1 s2 : State) : Prop where
  srcs  : ∀ r ∈ srcsOf i, readReg s1 r = readReg s2 r
  dests : ∀ r ∈ destsOf i, readReg s1 r = readReg s2 r
  text  : ∀ rd base, i = .parse rd base → s1.tlen = s2.tlen ∧ ∀ k < s1.tlen.val, tbRead s1 k = tbRead s2 k

/-- The two states hold the same results of the command: its destinations, CODE and, for a FORMAT that completed, the
text. -/
structure SameResults (i : Instr) (t1 t2 : State) : Prop where
  dests : ∀ r ∈ destsOf i, readReg t1 r = readReg t2 r
  code  : statusCode t1.status = statusCode t2.status
  text  : ∀ rs1 base mind, i = .format rs1 base mind → statusCode t1.status = 0 →
    t1.tlen = t2.tlen ∧ ∀ k < t1.tlen.val, tbRead t1 k = tbRead t2 k

/-- The two answers, where they are next states, hold the same results. -/
def AnswersAlike (i : Instr) (r1 r2 : Result) : Prop := ∀ t1 t2, r1 = .next t1 → r2 = .next t2 → SameResults i t1 t2

theorem answersAlike_finish {i : Instr} {rd : Reg} (hd : destsOf i = [rd]) {x1 x2 : Value} (hx : x1 = x2)
    (s1 s2 : State) : AnswersAlike i (finish rd x1 s1) (finish rd x2 s2) := by
  intro t1 t2 h1 h2
  obtain ⟨u1, hu1, hw1⟩ := finish_wrote rd x1 s1
  obtain ⟨u2, hu2, hw2⟩ := finish_wrote rd x2 s2
  cases hu1.symm.trans h1
  cases hu2.symm.trans h2
  refine ⟨fun r hr => ?_, hw1.status.code.trans hw2.status.code.symm, ?_⟩
  · obtain rfl : r = rd := by simpa [hd] using hr
    rw [hw1.dest, hw2.dest, hx]
  · rintro _ _ _ rfl
    cases hd

theorem answersAlike_finish2 {i : Instr} {rd rd2 : Reg} (hne : rd ≠ rd2) (hd : destsOf i = [rd, rd2]) (x x2 : Value)
    (s1 s2 : State) : AnswersAlike i (finish2 rd x rd2 x2 s1) (finish2 rd x rd2 x2 s2) := by
  intro t1 t2 h1 h2
  obtain ⟨u1, hu1, hw1⟩ := finish2_wrote hne x x2 s1
  obtain ⟨u2, hu2, hw2⟩ := finish2_wrote hne x x2 s2
  cases hu1.symm.trans h1
  cases hu2.symm.trans h2
  refine ⟨fun r hr => ?_, hw1.status.code.trans hw2.status.code.symm, ?_⟩
  · obtain rfl | rfl : r = rd ∨ r = rd2 := by simpa [hd] using hr
    · rw [hw1.dest, hw2.dest]
    · rw [hw1.dest2, hw2.dest2]
  · rintro _ _ _ rfl
    cases hd

theorem answersAlike_format (rs1 : Reg) (base mind : BitVec 8) {bs : List Byte} (hlen : bs.length ≤ 256)
    (s1 s2 : State) :
    AnswersAlike (.format rs1 base mind) (complete (tbPutText bs s1)) (complete (tbPutText bs s2)) := by
  intro t1 t2 h1 h2
  obtain ⟨u1, hu1, hw1⟩ := complete_tbPutText_wrote hlen s1
  obtain ⟨u2, hu2, hw2⟩ := complete_tbPutText_wrote hlen s2
  cases hu1.symm.trans h1
  cases hu2.symm.trans h2
  refine ⟨nofun, hw1.status.code.trans hw2.status.code.symm, fun _ _ _ _ _ => ⟨?_, fun k hk => ?_⟩⟩
  · exact Fin.ext (hw1.tlen.trans hw2.tlen.symm)
  · have hk' : k < bs.length := hw1.tlen ▸ hk
    rw [hw1.inside k hk', hw2.inside k hk']

/-- The same error leaves the destinations as they were, so they still agree. -/
theorem AgreesFor.answersAlike_raiseError {i : Instr} {s1 s2 : State} (ha : AgreesFor i s1 s2) (e : ErrorKind)
    (c : CmdWord) (idx : BitVec 8) : AnswersAlike i (raiseError e c idx s1) (raiseError e c idx s2) := by
  intro t1 t2 h1 h2
  have hr1 := recorded_of_raiseError h1
  have hr2 := recorded_of_raiseError h2
  refine ⟨fun r hr => ?_, hr1.code.trans hr2.code.symm, fun _ _ _ _ h0 => ?_⟩
  · rw [hr1.regs, hr2.regs, ha.dests r hr]
  · exact absurd (hr1.code.symm.trans h0) e.code_ne_zero

theorem AgreesFor.answersAlike_withRadix {i : Instr} {s1 s2 : State} (ha : AgreesFor i s1 s2) {c : CmdWord}
    {base : BitVec 8} {r1 r2 : Result} (h : AnswersAlike i r1 r2) :
    AnswersAlike i (withRadix c base s1 r1) (withRadix c base s2 r2) := by
  unfold withRadix
  split
  · exact h
  · exact ha.answersAlike_raiseError _ _ _

theorem AgreesFor.answersAlike_withDivisor {i : Instr} {s1 s2 : State} (ha : AgreesFor i s1 s2) {c : CmdWord}
    {d : Value} {r1 r2 : Result} (h : AnswersAlike i r1 r2) :
    AnswersAlike i (withDivisor c d s1 r1) (withDivisor c d s2 r2) := by
  unfold withDivisor
  split
  · exact ha.answersAlike_raiseError _ _ _
  · exact h

theorem tbText_congr {s1 s2 : State} (hlen : s1.tlen = s2.tlen)
    (hbytes : ∀ k < s1.tlen.val, tbRead s1 k = tbRead s2 k) :
    tbText s1 = tbText s2 := by
  rw [tbText, tbText, ← hlen]
  exact List.map_congr_left fun k hk => hbytes k (List.mem_range.1 hk)

/-- From states that agree on what a command names, it takes the same branch, to the same error or the same values. -/
theorem AgreesFor.exec_answersAlike {i : Instr} {s1 s2 : State} (ha : AgreesFor i s1 s2) :
    AnswersAlike i (exec i s1) (exec i s2) := by
  have hsrc := ha.srcs
  cases i with
  | divmod rd rd2 rs1 rs2 =>
    simp only [exec, execDivmod, hsrc rs1 (by simp [srcsOf]), hsrc rs2 (by simp [srcsOf])]
    split
    · exact ha.answersAlike_raiseError _ _ _
    · next hne => exact ha.answersAlike_withDivisor (answersAlike_finish2 hne rfl _ _ _ _)
  | div rd rs1 rs2 =>
    simp only [exec, execDiv, hsrc rs1 (by simp [srcsOf]), hsrc rs2 (by simp [srcsOf])]
    exact ha.answersAlike_withDivisor (answersAlike_finish rfl rfl _ _)
  | rem rd rs1 rs2 =>
    simp only [exec, execRem, hsrc rs1 (by simp [srcsOf]), hsrc rs2 (by simp [srcsOf])]
    exact ha.answersAlike_withDivisor (answersAlike_finish rfl rfl _ _)
  | dacc rd rs1 base aux =>
    simp only [exec, execDacc, hsrc rs1 (by simp [srcsOf])]
    refine ha.answersAlike_withRadix ?_
    cases digitValue aux base with
    | none => exact ha.answersAlike_raiseError _ _ _
    | some d => exact answersAlike_finish rfl rfl _ _
  | ddiv rd rd2 rs1 base =>
    simp only [exec, execDdiv, hsrc rs1 (by simp [srcsOf])]
    split
    · exact ha.answersAlike_raiseError _ _ _
    · next hne => exact ha.answersAlike_withRadix (answersAlike_finish2 hne rfl _ _ _ _)
  | parse rd base =>
    obtain ⟨hlen, hbytes⟩ := ha.text rd base rfl
    simp only [exec, execParse, tbText_congr hlen hbytes, hlen]
    refine ha.answersAlike_withRadix ?_
    split
    · exact ha.answersAlike_raiseError _ _ _
    · cases parseChars base 0 Value.zero (tbText s2) with
      | error k => exact ha.answersAlike_raiseError _ _ _
      | ok acc => exact answersAlike_finish rfl rfl _ _
  | format rs1 base mind =>
    have hlen : (formatText (readReg s2 rs1) base mind).length ≤ 256 :=
      (formatText_length_le _ _ _).trans (by decide)
    simp only [exec, execFormat, hsrc rs1 (by simp [srcsOf])]
    exact ha.answersAlike_withRadix (answersAlike_format rs1 base mind hlen s1 s2)
  | li rd imm16 => exact answersAlike_finish rfl rfl s1 s2
  | _ =>
    -- `finish` of a value of the one or two sources
    refine answersAlike_finish rfl ?_ s1 s2
    simp only [srcsOf, List.forall_mem_cons] at hsrc
    simp only [hsrc]

/-! ### The obligations of 41_representation.md -/

/-- Settles O41: what the command names decides its branch and its values. -/
theorem commandReadsOnlyItsSources : Obligations.CommandReadsOnlyItsSources := by
  unfold Obligations.CommandReadsOnlyItsSources
  intro i s1 s2 t1 t2 hregs htext h1 h2
  have ha : AgreesFor i s1 s2 := ⟨fun r hr => hregs r (.inl hr), fun r hr => hregs r (.inr hr), htext⟩
  obtain ⟨hdests, hcode, htext'⟩ := ha.exec_answersAlike t1 t2 h1 h2
  exact ⟨hdests, hcode, htext'⟩

/-- Settles O16: the width is at most that of the low limb, which carries the result. -/
theorem zeroExtendResults : Obligations.ZeroExtendResults := by
  unfold Obligations.ZeroExtendResults
  intro s rd rs1
  exact ⟨⟨spells_of_encode (Laws.EncodedFields.zext8 rd rs1) rfl rfl,
      completesWith_of_finish rfl (zextLow_eq_ofNat (by decide) _)⟩,
    ⟨spells_of_encode (Laws.EncodedFields.zext16 rd rs1) rfl rfl,
      completesWith_of_finish rfl (zextLow_eq_ofNat (by decide) _)⟩,
    ⟨spells_of_encode (Laws.EncodedFields.zext32 rd rs1) rfl rfl,
      completesWith_of_finish rfl (zextLow_eq_ofNat (by decide) _)⟩,
    ⟨spells_of_encode (Laws.EncodedFields.zext64 rd rs1) rfl rfl,
      completesWith_of_finish rfl (zextLow_eq_ofNat (by decide) _)⟩⟩

/-- Settles O17: the sign bit decides the two cases of `signedValue`. -/
theorem signExtendResults : Obligations.SignExtendResults := by
  unfold Obligations.SignExtendResults
  intro s rd rs1
  exact ⟨⟨spells_of_encode (Laws.EncodedFields.sext8 rd rs1) rfl rfl,
      completesWith_of_finish rfl (sextLow_eq_signedValue (by decide) _)⟩,
    ⟨spells_of_encode (Laws.EncodedFields.sext16 rd rs1) rfl rfl,
      completesWith_of_finish rfl (sextLow_eq_signedValue (by decide) _)⟩,
    ⟨spells_of_encode (Laws.EncodedFields.sext32 rd rs1) rfl rfl,
      completesWith_of_finish rfl (sextLow_eq_signedValue (by decide) _)⟩,
    ⟨spells_of_encode (Laws.EncodedFields.sext64 rd rs1) rfl rfl,
      completesWith_of_finish rfl (sextLow_eq_signedValue (by decide) _)⟩⟩

/-- Settles O18: a value is 0 exactly when both its limbs are. -/
theorem cnzResult : Obligations.CnzResult := by
  unfold Obligations.CnzResult
  intro s rd rs1
  exact ⟨spells_of_encode (Laws.EncodedFields.cnz rd rs1) rfl rfl,
    completesWith_of_finish rfl (boolValue_ne_zero_eq_ofNat _)⟩

/-- Settles O15: MOV, PAIR and GETHI move limbs as they are; LI is the number of its field. -/
theorem movLiPairGethiResults : Obligations.MovLiPairGethiResults := by
  unfold Obligations.MovLiPairGethiResults
  intro s rd rs1 rs2 imm16
  exact ⟨⟨spells_of_encode (Laws.EncodedFields.mov rd rs1) rfl rfl, completesWith_of_finish rfl rfl⟩,
    ⟨spells_of_encode (Laws.EncodedFields.li rd imm16) rfl rfl, completesWith_of_finish rfl (immValue_eq_ofNat imm16)⟩,
    ⟨spells_of_encode (Laws.EncodedFields.pair rd rs1 rs2) rfl rfl, completesWith_of_finish rfl rfl⟩,
    ⟨spells_of_encode (Laws.EncodedFields.gethi rd rs1) rfl rfl, completesWith_of_finish rfl rfl⟩⟩

end Sys2Proof.Machine

/-! ## 42_bitwise_shift.md: bitwise commands, shifts and rotations

A value is one row of 128 bits. On that row each limb-wise operation and each banded shift is the operation of `BitVec
128`, so its number is read off the library; a rotation by `k` is the OR of two rows that share no bit, which is their
sum. -/

namespace Sys2Proof.Value

theorem getLsbD_bits (v : Value) (i : Nat) :
    v.bits.getLsbD i = if i < 64 then v.low.getLsbD i else v.high.getLsbD (i - 64) :=
  BitVec.getLsbD_append

theorem eq_ofNat_of_val_eq {v : Value} {n : Nat} (h : v.val = n) : v = ofNat n := h ▸ (ofNat_val v).symm

end Sys2Proof.Value

namespace Sys2Proof.Machine

/-! ### Limb by limb is bit by bit (R170 to R173) -/

theorem bits_and128 (a b : Value) : (and128 a b).bits = a.bits &&& b.bits := BitVec.and_append.symm
theorem bits_or128 (a b : Value) : (or128 a b).bits = a.bits ||| b.bits := BitVec.or_append.symm
theorem bits_xor128 (a b : Value) : (xor128 a b).bits = a.bits ^^^ b.bits := BitVec.xor_append.symm

theorem val_and128 (a b : Value) : (and128 a b).val = a.val &&& b.val := by
  simp only [← Value.toNat_bits, bits_and128, BitVec.toNat_and]

theorem val_or128 (a b : Value) : (or128 a b).val = a.val ||| b.val := by
  simp only [← Value.toNat_bits, bits_or128, BitVec.toNat_or]

theorem val_xor128 (a b : Value) : (xor128 a b).val = a.val ^^^ b.val := by
  simp only [← Value.toNat_bits, bits_xor128, BitVec.toNat_xor]

theorem or128_comm (a b : Value) : or128 a b = or128 b a := by
  simp only [or128, BitVec.or_comm]

/-! ### The four bands of a shift (R176, R177) -/

section Bands

variable {n : Nat} (v : Value)

theorem shl128_of_128_le (hn : 128 ≤ n) : shl128 v n = Value.zero := if_pos hn

theorem shr128_of_128_le (hn : 128 ≤ n) : shr128 v n = Value.zero := if_pos hn

theorem shl128_of_64_le (hn : 64 ≤ n) (hlt : n ≤ 127) : shl128 v n = ⟨v.low <<< (n - 64), 0⟩ := by
  rw [shl128, if_neg (by omega), if_pos hn]

theorem shr128_of_64_le (hn : 64 ≤ n) (hlt : n ≤ 127) : shr128 v n = ⟨0, v.high >>> (n - 64)⟩ := by
  rw [shr128, if_neg (by omega), if_pos hn]

theorem shl128_of_1_le (hn : 1 ≤ n) (hlt : n ≤ 63) :
    shl128 v n = ⟨(v.high <<< n) ||| (v.low >>> (64 - n)), v.low <<< n⟩ := by
  rw [shl128, if_neg (by omega), if_neg (by omega), if_pos hn]

theorem shr128_of_1_le (hn : 1 ≤ n) (hlt : n ≤ 63) :
    shr128 v n = ⟨v.high >>> n, (v.low >>> n) ||| (v.high <<< (64 - n))⟩ := by
  rw [shr128, if_neg (by omega), if_neg (by omega), if_pos hn]

theorem shl128_zero : shl128 v 0 = v := rfl

theorem shr128_zero : shr128 v 0 = v := rfl

end Bands

theorem shl128_64 (v : Value) : shl128 v 64 = ⟨v.low, 0⟩ := by
  simp [shl128_of_64_le]

theorem shr128_64 (v : Value) : shr128 v 64 = ⟨0, v.high⟩ := by
  simp [shr128_of_64_le]

/-- The amount lies in one of the four bands. -/
theorem band_cases (n : Nat) : 128 ≤ n ∨ (64 ≤ n ∧ n ≤ 127) ∨ (1 ≤ n ∧ n ≤ 63) ∨ n = 0 := by omega

/-- In every band each bit comes from the place `n` below; between the limbs that is a question of which half the place
lies in. -/
theorem bits_shl128 (v : Value) (n : Nat) : (shl128 v n).bits = v.bits <<< n := by
  apply BitVec.eq_of_getLsbD_eq
  intro i hi
  rw [BitVec.getLsbD_shiftLeft, Value.getLsbD_bits, Value.getLsbD_bits]
  obtain hn | ⟨hn, hlt⟩ | ⟨hn, hlt⟩ | rfl := band_cases n
  · simp [shl128_of_128_le v hn, show i < n by omega]
  · rw [shl128_of_64_le v hn hlt]
    by_cases hlow : i < 64
    · simp [hlow, show i < n by omega]
    · have hplace : i - 64 - (n - 64) = i - n := by omega
      simp only [if_neg hlow, BitVec.getLsbD_shiftLeft, hplace]
      grind
  · rw [shl128_of_1_le v hn hlt]
    grind
  · simp [shl128_zero, hi]

/-- In every band each bit comes from the place `n` above. -/
theorem bits_shr128 (v : Value) (n : Nat) : (shr128 v n).bits = v.bits >>> n := by
  apply BitVec.eq_of_getLsbD_eq
  intro i hi
  rw [BitVec.getLsbD_ushiftRight, Value.getLsbD_bits, Value.getLsbD_bits]
  obtain hn | ⟨hn, hlt⟩ | ⟨hn, hlt⟩ | rfl := band_cases n
  · have hhigh : ¬ n + i < 64 := by omega
    simp [shr128_of_128_le v hn, hhigh, BitVec.getLsbD_of_ge v.high (n + i - 64) (by omega)]
  · rw [shr128_of_64_le v hn hlt]
    grind
  · rw [shr128_of_1_le v hn hlt]
    grind
  · simp [shr128_zero]

/-! ### Shifts as arithmetic -/

theorem val_shl128 (v : Value) (n : Nat) : (shl128 v n).val = v.val * 2 ^ n % 2 ^ 128 := by
  rw [← Value.toNat_bits, bits_shl128, BitVec.toNat_shiftLeft, Nat.shiftLeft_eq, Value.toNat_bits]

theorem val_shr128 (v : Value) (n : Nat) : (shr128 v n).val = v.val / 2 ^ n := by
  rw [← Value.toNat_bits, bits_shr128, BitVec.toNat_ushiftRight, Nat.shiftRight_eq_div_pow, Value.toNat_bits]

theorem shl128_eq_ofNat (v : Value) (n : Nat) : shl128 v n = Value.ofNat (v.val * 2 ^ n) :=
  Value.eq_ofNat (val_shl128 v n)

theorem shr128_eq_ofNat (v : Value) (n : Nat) : shr128 v n = Value.ofNat (v.val / 2 ^ n) :=
  Value.eq_ofNat_of_val_eq (val_shr128 v n)

/-! ### Rotations (R182) -/

/-- A shift left by `k` and the opposite shift by the rest share no bit, so their OR is their sum: `k` places of
rotation. -/
theorem or128_shl128_shr128_eq_rotatedLeft (v : Value) {k : Nat} (hk : k ≤ 128) :
    or128 (shl128 v k) (shr128 v (128 - k)) = rotatedLeft v k := by
  have hsplit : (2 : Nat) ^ 128 = 2 ^ (128 - k) * 2 ^ k := by rw [← Nat.pow_add, Nat.sub_add_cancel hk]
  have htop : v.val / 2 ^ (128 - k) < 2 ^ k := by
    rw [Nat.div_lt_iff_lt_mul (Nat.two_pow_pos _), Nat.mul_comm, ← hsplit]
    exact v.val_lt
  have hrest : v.val * 2 ^ k % 2 ^ 128 = 2 ^ k * (v.val % 2 ^ (128 - k)) := by
    rw [hsplit, Nat.mul_mod_mul_right, Nat.mul_comm]
  have hval : (or128 (shl128 v k) (shr128 v (128 - k))).val = v.val * 2 ^ k % 2 ^ 128 + v.val / 2 ^ (128 - k) := by
    rw [val_or128, val_shl128, val_shr128, hrest, Nat.two_pow_add_eq_or_of_lt htop]
  rw [← Value.ofNat_val (or128 _ _), hval, rotatedLeft, ← Value.ofNat_mod, Nat.mod_add_mod, Value.ofNat_mod]

/-- Rotation right is rotation left by the rest of the 128 places. -/
theorem rotatedRight_eq_rotatedLeft (v : Value) {k : Nat} (hk : k ≤ 128) :
    rotatedRight v k = rotatedLeft v (128 - k) := by
  rw [rotatedRight, rotatedLeft, Nat.add_comm, Nat.sub_sub_self hk]

theorem rotatedLeft_zero (v : Value) : rotatedLeft v 0 = v := by
  rw [rotatedLeft, Nat.sub_zero, Nat.div_eq_of_lt v.val_lt, Nat.pow_zero, Nat.mul_one, Nat.add_zero, Value.ofNat_val]

theorem rotatedLeft_128 (v : Value) : rotatedLeft v 128 = v := by
  rw [rotatedLeft, Nat.sub_self, Nat.pow_zero, Nat.div_one, ← Value.ofNat_mod, Nat.mul_add_mod_self_right,
    Value.ofNat_mod, Value.ofNat_val]

theorem rotatedRight_zero (v : Value) : rotatedRight v 0 = v := by
  rw [rotatedRight_eq_rotatedLeft v (Nat.zero_le _), rotatedLeft_128]

theorem rol128_of_mod_eq_zero (v : Value) {n : Nat} (h : n % 128 = 0) : rol128 v n = v := if_pos h

theorem ror128_of_mod_eq_zero (v : Value) {n : Nat} (h : n % 128 = 0) : ror128 v n = v := if_pos h

theorem rol128_of_mod_ne_zero (v : Value) {n : Nat} (h : n % 128 ≠ 0) :
    rol128 v n = or128 (shl128 v (n % 128)) (shr128 v (128 - n % 128)) := if_neg h

theorem ror128_of_mod_ne_zero (v : Value) {n : Nat} (h : n % 128 ≠ 0) :
    ror128 v n = or128 (shr128 v (n % 128)) (shl128 v (128 - n % 128)) := if_neg h

theorem rol128_eq_rotatedLeft (v : Value) (n : Nat) : rol128 v n = rotatedLeft v (n % 128) := by
  by_cases h : n % 128 = 0
  · rw [rol128_of_mod_eq_zero v h, h, rotatedLeft_zero]
  · rw [rol128_of_mod_ne_zero v h, or128_shl128_shr128_eq_rotatedLeft v (by omega)]

theorem ror128_eq_rotatedRight (v : Value) (n : Nat) : ror128 v n = rotatedRight v (n % 128) := by
  by_cases h : n % 128 = 0
  · rw [ror128_of_mod_eq_zero v h, h, rotatedRight_zero]
  · have hk : n % 128 ≤ 128 := by omega
    rw [ror128_of_mod_ne_zero v h, or128_comm, rotatedRight_eq_rotatedLeft v hk,
      ← or128_shl128_shr128_eq_rotatedLeft v (Nat.sub_le _ _), Nat.sub_sub_self hk]

theorem rol128_eq_ror128 (v : Value) (n : Nat) : rol128 v n = ror128 v (128 - n % 128) := by
  rw [rol128_eq_rotatedLeft, ror128_eq_rotatedRight]
  by_cases h : n % 128 = 0
  · rw [h, rotatedLeft_zero, Nat.sub_zero, Nat.mod_self, rotatedRight_zero]
  · have hlt : 128 - n % 128 < 128 := by omega
    rw [Nat.mod_eq_of_lt hlt, rotatedRight_eq_rotatedLeft v hlt.le, Nat.sub_sub_self (by omega)]

theorem rol128_64 (v : Value) : rol128 v 64 = ⟨v.low, v.high⟩ := by
  simp [rol128_of_mod_ne_zero, shl128_64, shr128_64, or128]

theorem ror128_64 (v : Value) : ror128 v 64 = ⟨v.low, v.high⟩ := (rol128_eq_ror128 v 64).symm.trans (rol128_64 v)

/-- A register's amount counts by its low 7 bits, as `2^64` is a multiple of 128 (R185, R186). -/
theorem regAmount_mod_128 (x : Value) : regAmount x % 128 = x.low.toNat % 128 :=
  val_mod_two_pow (show 7 ≤ 64 by decide) x

/-! ### The obligations of 42_bitwise_shift.md -/

/-- Settles O19: each command writes the limb-wise operation, whose number is the operation on the numbers. -/
theorem bitwiseResults : Obligations.BitwiseResults := by
  unfold Obligations.BitwiseResults
  intro s rd rs1 rs2
  exact ⟨⟨spells_of_encode (Laws.EncodedFields.not rd rs1) rfl rfl, completesWith_of_finish rfl rfl,
      completesWith_of_finish rfl (Value.eq_ofNat_of_val_eq (val_not128 _))⟩,
    ⟨spells_of_encode (Laws.EncodedFields.and rd rs1 rs2) rfl rfl, completesWith_of_finish rfl rfl,
      completesWith_of_finish rfl (Value.eq_ofNat_of_val_eq (val_and128 _ _))⟩,
    ⟨spells_of_encode (Laws.EncodedFields.or rd rs1 rs2) rfl rfl, completesWith_of_finish rfl rfl,
      completesWith_of_finish rfl (Value.eq_ofNat_of_val_eq (val_or128 _ _))⟩,
    ⟨spells_of_encode (Laws.EncodedFields.xor rd rs1 rs2) rfl rfl, completesWith_of_finish rfl rfl,
      completesWith_of_finish rfl (Value.eq_ofNat_of_val_eq (val_xor128 _ _))⟩⟩

/-- Settles O20: an amount below 128 multiplies or divides by a power of two; any other clears. -/
theorem shiftResults : Obligations.ShiftResults := by
  unfold Obligations.ShiftResults
  intro s rd rs1 rs2 imm8
  refine ⟨⟨spells_of_encode (Laws.EncodedFields.shli rd rs1 imm8) rfl rfl,
      completesWith_of_finish rfl (shl128_eq_ofNat _ _)⟩,
    ⟨spells_of_encode (Laws.EncodedFields.shri rd rs1 imm8) rfl rfl,
      completesWith_of_finish rfl (shr128_eq_ofNat _ _)⟩,
    ⟨spells_of_encode (Laws.EncodedFields.shl rd rs1 rs2) rfl rfl, completesWith_of_finish rfl ?_⟩,
    ⟨spells_of_encode (Laws.EncodedFields.shr rd rs1 rs2) rfl rfl, completesWith_of_finish rfl ?_⟩⟩
  · split
    · next hn => exact shl128_of_128_le _ hn
    · exact shl128_eq_ofNat _ _
  · split
    · next hn => exact shr128_of_128_le _ hn
    · exact shr128_eq_ofNat _ _

/-- Settles O21: a rotation command rotates by its amount modulo 128. -/
theorem rotateResults : Obligations.RotateResults := by
  unfold Obligations.RotateResults
  intro s rd rs1 rs2 imm8
  rw [← regAmount_mod_128]
  exact ⟨⟨spells_of_encode (Laws.EncodedFields.roli rd rs1 imm8) rfl rfl,
      completesWith_of_finish rfl (rol128_eq_rotatedLeft _ _)⟩,
    ⟨spells_of_encode (Laws.EncodedFields.rori rd rs1 imm8) rfl rfl,
      completesWith_of_finish rfl (ror128_eq_rotatedRight _ _)⟩,
    ⟨spells_of_encode (Laws.EncodedFields.rol rd rs1 rs2) rfl rfl,
      completesWith_of_finish rfl (rol128_eq_rotatedLeft _ _)⟩,
    ⟨spells_of_encode (Laws.EncodedFields.ror rd rs1 rs2) rfl rfl,
      completesWith_of_finish rfl (ror128_eq_rotatedRight _ _)⟩⟩

/-- Settles O50: the bands are those of the definitions, and the numbers those of the row of bits. -/
theorem shiftBands : Obligations.ShiftBands := by
  unfold Obligations.ShiftBands
  intro h l n
  refine ⟨fun hn => ⟨shl128_of_128_le _ hn, shr128_of_128_le _ hn⟩,
    fun hn hlt => ⟨shl128_of_64_le _ hn hlt, shr128_of_64_le _ hn hlt⟩,
    fun hn hlt => ⟨shl128_of_1_le _ hn hlt, shr128_of_1_le _ hn hlt⟩, ?_, shl128_eq_ofNat _ n, shr128_eq_ofNat _ n,
    shl128_64 _⟩
  rintro rfl
  exact ⟨shl128_zero _, shr128_zero _⟩

/-- Settles O51: the two cases of the definitions, and rotation left by `k` as rotation right by `128 - k`. -/
theorem rotationLaws : Obligations.RotationLaws := by
  unfold Obligations.RotationLaws
  intro v n
  exact ⟨fun h => ⟨rol128_of_mod_eq_zero v h, ror128_of_mod_eq_zero v h⟩,
    fun h => ⟨rol128_of_mod_ne_zero v h, ror128_of_mod_ne_zero v h⟩, rol128_eq_ror128 v n, rol128_64 v, ror128_64 v⟩

end Sys2Proof.Machine

/-! ## 43_additive_order.md: the adder, the subtractor and the order

The carry out of a sum is seen in the sum falling below an operand, in one limb as in the whole value: one fact about
addition modulo `m` serves the adder and its recovery by CLT. The limbs' order is the order of the numbers, so the six
comparisons are read off two equivalences. -/

namespace Sys2Proof.Machine

/-! ### Addition and subtraction modulo 2^128 (R200, R201) -/

/-- A sum modulo `m` is below its first summand exactly when it wraps. -/
theorem add_mod_lt_left_iff {m x y : Nat} (hx : x < m) (hy : y < m) : (x + y) % m < x ↔ m ≤ x + y := by
  by_cases hwrap : m ≤ x + y
  · rw [Nat.mod_eq_sub_mod hwrap, Nat.mod_eq_of_lt (by omega)]
    omega
  · rw [Nat.mod_eq_of_lt (by omega)]
    omega

theorem limb_add_lt_left_iff (x y : Limb) : x + y < x ↔ 2 ^ 64 ≤ x.toNat + y.toNat := by
  rw [BitVec.lt_def, BitVec.toNat_add, add_mod_lt_left_iff x.isLt y.isLt]

theorem limb_add_lt_right_iff (x y : Limb) : x + y < y ↔ 2 ^ 64 ≤ x.toNat + y.toNat := by
  rw [BitVec.add_comm, limb_add_lt_left_iff, Nat.add_comm]

/-- The carry makes up for the `2^64` that the low limb lost. -/
theorem val_add128 (a b : Value) : (add128 a b).val = (a.val + b.val) % 2 ^ 128 := by
  unfold add128 Value.val
  by_cases hcarry : a.low + b.low < a.low
  · have hwrap := (limb_add_lt_left_iff _ _).1 hcarry
    simp only [if_pos hcarry, BitVec.toNat_add, BitVec.ofNat_eq_ofNat, BitVec.toNat_ofNat]
    omega
  · have hfits := mt (limb_add_lt_left_iff _ _).2 hcarry
    simp only [if_neg hcarry, BitVec.toNat_add, BitVec.ofNat_eq_ofNat, BitVec.toNat_ofNat]
    omega

/-- The borrow pays for the `2^64` that the low limb gained. -/
theorem val_sub128 (a b : Value) : (sub128 a b).val = (a.val + 2 ^ 128 - b.val) % 2 ^ 128 := by
  unfold sub128 Value.val
  by_cases hborrow : a.low < b.low
  · have hlow := BitVec.lt_def.1 hborrow
    simp only [if_pos hborrow, BitVec.toNat_sub, BitVec.ofNat_eq_ofNat, BitVec.toNat_ofNat]
    omega
  · have hlow := mt BitVec.lt_def.2 hborrow
    simp only [if_neg hborrow, BitVec.toNat_sub, BitVec.ofNat_eq_ofNat, BitVec.toNat_ofNat]
    omega

theorem add128_eq_ofNat (a b : Value) : add128 a b = Value.ofNat (a.val + b.val) := Value.eq_ofNat (val_add128 a b)

theorem sub128_eq_ofNat (a b : Value) : sub128 a b = Value.ofNat (a.val + 2 ^ 128 - b.val) :=
  Value.eq_ofNat (val_sub128 a b)

/-- DEC is the subtractor with a second operand of 1: a limb borrows for a step of 1 exactly when it is 0 (R205). -/
theorem dec128_eq_sub128_one (a : Value) : dec128 a = sub128 a Value.one := by
  simp [dec128, sub128, BitVec.lt_one_iff]

/-- Software sees the carry out of bit 127 in the sum falling below an operand (R202). -/
theorem val_add128_lt_left_iff (a b : Value) : (add128 a b).val < a.val ↔ 2 ^ 128 ≤ a.val + b.val := by
  rw [val_add128, add_mod_lt_left_iff a.val_lt b.val_lt]

theorem add128_zero (v : Value) : add128 v Value.zero = v := by
  rw [add128_eq_ofNat, Value.val_zero, Nat.add_zero, Value.ofNat_val]

theorem sub128_self (v : Value) : sub128 v v = Value.zero := by
  rw [sub128_eq_ofNat, Nat.add_sub_cancel_left]
  rfl

theorem sub128_add128_cancel (v w : Value) : sub128 (add128 v w) w = v := by
  apply Value.val_injective
  have hv := v.val_lt
  have hw := w.val_lt
  rw [val_sub128, val_add128]
  omega

/-! ### The order (R206) -/

theorem eq128_iff {a b : Value} : eq128 a b = true ↔ a.val = b.val := by
  simp [eq128, Value.val_inj, Value.ext_iff']

/-- The high limbs decide, and the low limbs where those are equal: lexicographic order is the order of the numbers. -/
theorem lt128_iff {a b : Value} : lt128 a b = true ↔ a.val < b.val := by
  simp only [lt128, Value.val, Bool.or_eq_true, Bool.and_eq_true, decide_eq_true_eq, beq_iff_eq, BitVec.lt_def,
    ← BitVec.toNat_inj]
  omega

theorem not_eq128_iff {a b : Value} : (!eq128 a b) = true ↔ a.val ≠ b.val := by
  rw [Bool.not_eq_true', ← Bool.not_eq_true, eq128_iff]

theorem not_lt128_iff {a b : Value} : (!lt128 a b) = true ↔ b.val ≤ a.val := by
  rw [Bool.not_eq_true', ← Bool.not_eq_true, lt128_iff, Nat.not_lt]

theorem lt128_eq128_trichotomy (v w : Value) :
    (lt128 v w = true ∧ eq128 v w = false ∧ lt128 w v = false) ∨
      (lt128 v w = false ∧ eq128 v w = true ∧ lt128 w v = false) ∨
      (lt128 v w = false ∧ eq128 v w = false ∧ lt128 w v = true) := by
  simp only [← Bool.not_eq_true, lt128_iff, eq128_iff]
  omega

/-- `BOOL` of a test that decides `p` is the number 1 or 0 as `p` holds or not. -/
theorem boolValue_eq_ofNat {t : Bool} {p : Prop} [Decidable p] (h : t = true ↔ p) :
    boolValue t = Value.ofNat (if p then 1 else 0) := by
  by_cases hp : p
  · rw [if_pos hp, h.2 hp]
    rfl
  · rw [if_neg hp, Bool.eq_false_iff.2 (mt h.1 hp)]
    rfl

theorem completesWith_clt (s : State) (rd rs1 rs2 : Reg) :
    CompletesWith (.clt rd rs1 rs2) s rd (Value.ofNat (if (readReg s rs1).val < (readReg s rs2).val then 1 else 0)) :=
  completesWith_of_finish rfl (boolValue_eq_ofNat lt128_iff)

/-! ### The obligations of 43_additive_order.md -/

/-- Settles O46: both comparisons of the low sum ask whether it wraps. -/
theorem adderAddsModulo : Obligations.AdderAddsModulo := by
  unfold Obligations.AdderAddsModulo
  intro a b
  exact ⟨add128_eq_ofNat a b, limb_add_lt_left_iff _ _,
    (limb_add_lt_left_iff _ _).trans (limb_add_lt_right_iff _ _).symm⟩

/-- Settles O47: the borrow chain between the limbs is subtraction on the numbers. -/
theorem subtractorSubtractsModulo : Obligations.SubtractorSubtractsModulo := by
  unfold Obligations.SubtractorSubtractsModulo
  exact sub128_eq_ofNat

/-- Settles O48: the laws of the numbers modulo 2^128, and the trichotomy of their order. -/
theorem additiveAndOrderLaws : Obligations.AdditiveAndOrderLaws := by
  unfold Obligations.AdditiveAndOrderLaws
  intro v w
  exact ⟨add128_zero v, sub128_self v, sub128_add128_cancel v w, lt128_iff, lt128_eq128_trichotomy v w⟩

/-- Settles O22: each command writes what the adder or the subtractor gives, for INC and DEC with a step of 1. -/
theorem additiveResults : Obligations.AdditiveResults := by
  unfold Obligations.AdditiveResults
  intro s rd rs1 rs2
  exact ⟨⟨spells_of_encode (Laws.EncodedFields.add rd rs1 rs2) rfl rfl,
      completesWith_of_finish rfl (add128_eq_ofNat _ _)⟩,
    ⟨spells_of_encode (Laws.EncodedFields.sub rd rs1 rs2) rfl rfl,
      completesWith_of_finish rfl (sub128_eq_ofNat _ _)⟩,
    ⟨spells_of_encode (Laws.EncodedFields.inc rd rs1) rfl rfl,
      completesWith_of_finish rfl (inc128_eq_ofNat _)⟩,
    ⟨spells_of_encode (Laws.EncodedFields.dec rd rs1) rfl rfl,
      completesWith_of_finish rfl ((dec128_eq_sub128_one _).trans (sub128_eq_ofNat _ _))⟩⟩

/-- Settles O23: each command tests EQ128 or LT128, of its operands or swapped, as it is or negated. -/
theorem compareResults : Obligations.CompareResults := by
  unfold Obligations.CompareResults
  intro s rd rs1 rs2
  exact ⟨⟨spells_of_encode (Laws.EncodedFields.ceq rd rs1 rs2) rfl rfl,
      completesWith_of_finish rfl (boolValue_eq_ofNat eq128_iff)⟩,
    ⟨spells_of_encode (Laws.EncodedFields.cne rd rs1 rs2) rfl rfl,
      completesWith_of_finish rfl (boolValue_eq_ofNat not_eq128_iff)⟩,
    ⟨spells_of_encode (Laws.EncodedFields.clt rd rs1 rs2) rfl rfl, completesWith_clt s rd rs1 rs2⟩,
    ⟨spells_of_encode (Laws.EncodedFields.cle rd rs1 rs2) rfl rfl,
      completesWith_of_finish rfl (boolValue_eq_ofNat not_lt128_iff)⟩,
    ⟨spells_of_encode (Laws.EncodedFields.cgt rd rs1 rs2) rfl rfl,
      completesWith_of_finish rfl (boolValue_eq_ofNat lt128_iff)⟩,
    ⟨spells_of_encode (Laws.EncodedFields.cge rd rs1 rs2) rfl rfl,
      completesWith_of_finish rfl (boolValue_eq_ofNat not_lt128_iff)⟩⟩

/-- Settles O49: as `d` is not `a`, CLT compares the sum with the old first operand. -/
theorem carryAndBorrowRecovered : Obligations.CarryAndBorrowRecovered := by
  unfold Obligations.CarryAndBorrowRecovered
  intro s d a b c hda
  obtain ⟨t, ht, hadd⟩ : CompletesWith (.add d a b) s d (add128 (readReg s a) (readReg s b)) := finish_wrote d _ s
  obtain ⟨u, hu, hclt⟩ := completesWith_clt t c d a
  obtain ⟨q, hq, hborrow⟩ := completesWith_clt s c a b
  refine ⟨⟨u, (runInstrs_cons_next ht).trans (runInstrs_cons_next hu), ?_⟩, ⟨q, hq, hborrow.dest⟩⟩
  simp only [hclt.dest, hadd.dest, hadd.others a hda.symm, val_add128_lt_left_iff]

end Sys2Proof.Machine

/-! ## 44_multiply.md: the multiplier

A value is the sum of its sub-limbs at their places, and a partial product is the product of two such terms modulo
2^128. Accumulating with the adder is summing modulo 2^128, so the sixteen terms add up to the product of the two
sums. -/

namespace Sys2Proof.Machine

/-! ### Sub-limbs and their products (R230, R10) -/

theorem toNat_subLimb (a : Value) (k : Nat) : (subLimb a k).toNat = a.val / 2 ^ (32 * k) % 2 ^ 32 := by
  rw [subLimb, BitVec.extractLsb'_toNat, Value.toNat_bits, Nat.shiftRight_eq_div_pow]

/-- The lowest `n` sub-limbs at their places add up to the lowest `32 * n` bits. -/
theorem sum_subLimb_eq_val_mod (a : Value) (n : Nat) :
    ((List.range n).map fun k => (subLimb a k).toNat * 2 ^ (32 * k)).sum = a.val % 2 ^ (32 * n) := by
  induction n with
  | zero => simp [Nat.mod_one]
  | succ n ih =>
    rw [List.range_succ, List.map_append, List.sum_append, ih, List.map_singleton, List.sum_singleton, toNat_subLimb,
      Nat.pow_mul, Nat.pow_mul, Nat.mul_comm]
    exact Nat.mod_pow_succ.symm

theorem sum_subLimb_eq_val (a : Value) :
    ((List.range 4).map fun k => (subLimb a k).toNat * 2 ^ (32 * k)).sum = a.val :=
  (sum_subLimb_eq_val_mod a 4).trans (Nat.mod_eq_of_lt a.val_lt)

theorem toNat_mul64 (x y : BitVec 32) : (mul64 x y).toNat = x.toNat * y.toNat := by
  have hfits : x.toNat * y.toNat < 2 ^ 32 * 2 ^ 32 := Nat.mul_lt_mul'' x.isLt y.isLt
  rw [mul64, BitVec.toNat_mul, BitVec.toNat_setWidth_of_le (by decide), BitVec.toNat_setWidth_of_le (by decide)]
  exact Nat.mod_eq_of_lt hfits

theorem subLimb_mul_lt (a b : Value) (i j : Nat) : (subLimb a i).toNat * (subLimb b j).toNat < 2 ^ 64 := by
  rw [← toNat_mul64]
  exact (mul64 _ _).isLt

/-- The two upper sub-limbs are the high limb. -/
theorem subLimb_of_high_eq_zero {a : Value} (ha : a.high = 0) {k : Nat} (hk : 2 ≤ k) : subLimb a k = 0 := by
  have hval : a.val < 2 ^ 64 := by simp [Value.val, ha, a.low.isLt]
  have hplace : 2 ^ 64 ≤ 2 ^ (32 * k) := Nat.pow_le_pow_right (by decide) (by omega)
  apply BitVec.eq_of_toNat_eq
  rw [toNat_subLimb, Nat.div_eq_of_lt (hval.trans_le hplace)]
  rfl

/-! ### Partial products (R231, R232) -/

theorem val_partialProduct (a b : Value) (i j : Nat) :
    (partialProduct a b i j).val = (subLimb a i).toNat * (subLimb b j).toNat * 2 ^ (32 * (i + j)) % 2 ^ 128 := by
  rw [partialProduct, val_shl128, Value.val_ofLow, toNat_mul64]

theorem partialProduct_eq_ofNat (a b : Value) (i j : Nat) :
    partialProduct a b i j =
      Value.ofNat ((subLimb a i).toNat * 2 ^ (32 * i) * ((subLimb b j).toNat * 2 ^ (32 * j))) := by
  apply Value.eq_ofNat
  rw [val_partialProduct, Nat.mul_add, Nat.pow_add, Nat.mul_mul_mul_comm]

theorem partialProduct_of_subLimb_eq_zero {a b : Value} {i j : Nat} (h : subLimb a i = 0 ∨ subLimb b j = 0) :
    partialProduct a b i j = Value.zero := by
  apply Value.val_eq_zero.1
  rw [val_partialProduct]
  obtain h | h := h <;> simp [h]

/-- A place below bit 96 keeps the whole product. -/
theorem val_partialProduct_of_le_two (a b : Value) {i j : Nat} (h : i + j ≤ 2) :
    (partialProduct a b i j).val = (subLimb a i).toNat * (subLimb b j).toNat * 2 ^ (32 * (i + j)) := by
  have hplace : 2 ^ (32 * (i + j)) ≤ 2 ^ 64 := Nat.pow_le_pow_right (by decide) (by omega)
  have hfits := Nat.mul_lt_mul_of_lt_of_le (subLimb_mul_lt a b i j) hplace (by decide)
  rw [val_partialProduct]
  exact Nat.mod_eq_of_lt hfits

/-- At bit 96 only the low 32 bits of the product stay below bit 128. -/
theorem val_partialProduct_of_eq_three (a b : Value) {i j : Nat} (h : i + j = 3) :
    (partialProduct a b i j).val = (subLimb a i).toNat * (subLimb b j).toNat % 2 ^ 32 * 2 ^ 96 := by
  rw [val_partialProduct, h]
  exact Nat.mul_mod_mul_right (2 ^ 96) _ (2 ^ 32)

/-! ### Accumulation (R231, R234) -/

/-- Accumulating with the adder adds the sum of the terms. -/
theorem foldl_add128_ofNat (f : Nat → Nat) (ks : List Nat) (acc : Value) :
    ks.foldl (fun acc k => add128 acc (Value.ofNat (f k))) acc = add128 acc (Value.ofNat (ks.map f).sum) := by
  induction ks generalizing acc with
  | nil =>
    rw [List.map_nil, List.sum_nil]
    exact (add128_zero acc).symm
  | cons k ks ih =>
    rw [List.foldl_cons, ih, List.map_cons, List.sum_cons]
    apply Value.val_injective
    simp only [val_add128, Value.val_ofNat]
    omega

theorem mul128_eq_ofNat (a b : Value) : mul128 a b = Value.ofNat (a.val * b.val) := by
  have hproduct : ((List.range 4).map fun i => ((List.range 4).map fun j =>
      (subLimb a i).toNat * 2 ^ (32 * i) * ((subLimb b j).toNat * 2 ^ (32 * j))).sum).sum = a.val * b.val := by
    simp only [List.sum_map_mul_left, List.sum_map_mul_right, sum_subLimb_eq_val]
  simp only [mul128, partialProduct_eq_ofNat, foldl_add128_ofNat, hproduct]
  rw [add128_eq_ofNat, Value.val_zero, Nat.zero_add, Value.val_ofNat, Value.ofNat_mod]

/-- A product that fits in 128 bits loses none. -/
theorem val_mul128_of_high_eq_zero {a b : Value} (ha : a.high = 0) (hb : b.high = 0) :
    (mul128 a b).val = a.low.toNat * b.low.toNat := by
  have hfits : a.low.toNat * b.low.toNat < 2 ^ 64 * 2 ^ 64 := Nat.mul_lt_mul'' a.low.isLt b.low.isLt
  have hval {v : Value} (hv : v.high = 0) : v.val = v.low.toNat := by simp [Value.val, hv]
  rw [mul128_eq_ofNat, Value.val_ofNat, hval ha, hval hb]
  exact Nat.mod_eq_of_lt hfits

/-! ### The obligations of 44_multiply.md -/

/-- Settles O52: the laws are those of the product of the numbers modulo 2^128. -/
theorem multiplierMultipliesModulo : Obligations.MultiplierMultipliesModulo := by
  unfold Obligations.MultiplierMultipliesModulo
  intro a b
  refine ⟨mul128_eq_ofNat a b, ?_, ?_, ?_⟩
  · rw [mul128_eq_ofNat, Value.val_one, Nat.mul_one, Value.ofNat_val]
  · rw [mul128_eq_ofNat, Value.val_zero, Nat.mul_zero]
    rfl
  · rw [mul128_eq_ofNat, Value.val_ofNat, Value.val_ofNat]
    rfl

/-- Settles O24: MUL writes what the multiplier gives. -/
theorem mulResult : Obligations.MulResult := by
  unfold Obligations.MulResult
  intro s rd rs1 rs2
  exact ⟨spells_of_encode (Laws.EncodedFields.mul rd rs1 rs2) rfl rfl,
    completesWith_of_finish rfl (mul128_eq_ofNat _ _)⟩

/-- Settles O53: the sum `i + j` fixes the place, and the place how much of the product stays; with both high limbs 0
every term above the second sub-limb has a factor 0. -/
theorem partialProductsAndNarrowMultiply : Obligations.PartialProductsAndNarrowMultiply := by
  unfold Obligations.PartialProductsAndNarrowMultiply
  intro a b
  refine ⟨fun i j _ _ h => shl128_of_128_le _ (by omega), fun i j _ _ h => ?_, fun i j _ _ h => ?_,
    fun i j _ _ h => ⟨?_, ?_⟩, fun i j _ _ h => val_partialProduct_of_eq_three a b h,
    fun ha hb => ⟨fun i j _ _ h => partialProduct_of_subLimb_eq_zero ?_, val_mul128_of_high_eq_zero ha hb⟩⟩
  · rw [val_partialProduct_of_le_two a b (by omega), h, Nat.mul_zero, Nat.pow_zero, Nat.mul_one]
  · rw [val_partialProduct_of_le_two a b (by omega), h]
  · rw [partialProduct, h]
    exact shl128_64 _
  · rw [val_partialProduct_of_le_two a b (by omega), h]
  · exact h.imp (subLimb_of_high_eq_zero ha) (subLimb_of_high_eq_zero hb)

end Sys2Proof.Machine

/-! ## 45_divide.md: the restoring divider and the division commands

With `m` rounds left the remainder lies below `d * 2^m`, so the divisor at its present place fits into it at most once:
a round takes one quotient bit and halves the bound, and after the last round the remainder is below `d`. `bitwidth` is
the least `k` with the value below `2^k`, which puts the first round there. -/

namespace Sys2Proof.Value

theorem high_eq_zero_iff {v : Value} : v.high = 0 ↔ v.val < 2 ^ 64 := by
  have hlow := v.low.isLt
  rw [← BitVec.toNat_inj, BitVec.ofNat_eq_ofNat, BitVec.toNat_ofNat, Nat.zero_mod, val]
  omega

theorem val_pos_of_ne_zero {v : Value} (h : v ≠ zero) : 0 < v.val := Nat.pos_of_ne_zero (mt val_eq_zero.1 h)

end Sys2Proof.Value

namespace Sys2Proof.Machine

/-! ### The datapath where nothing is lost -/

theorem val_add128_of_lt {a b : Value} (h : a.val + b.val < 2 ^ 128) : (add128 a b).val = a.val + b.val := by
  rw [val_add128, Nat.mod_eq_of_lt h]

theorem val_sub128_of_le {a b : Value} (h : b.val ≤ a.val) : (sub128 a b).val = a.val - b.val := by
  have ha := a.val_lt
  rw [val_sub128]
  omega

theorem val_shl128_of_lt {v : Value} {n : Nat} (h : v.val * 2 ^ n < 2 ^ 128) : (shl128 v n).val = v.val * 2 ^ n := by
  rw [val_shl128, Nat.mod_eq_of_lt h]

/-! ### The width of a value (R11) -/

theorem bitwidth_zero : bitwidth Value.zero = 0 := if_pos Value.val_zero

theorem bitwidth_le_iff {v : Value} {k : Nat} : bitwidth v ≤ k ↔ v.val < 2 ^ k := by
  unfold bitwidth
  by_cases hv : v.val = 0
  · simp [hv]
  · rw [if_neg hv, Nat.add_one_le_iff, Nat.log2_lt hv]

theorem lt_bitwidth_iff {v : Value} {k : Nat} : k < bitwidth v ↔ 2 ^ k ≤ v.val := by
  rw [← Nat.not_le, bitwidth_le_iff, Nat.not_lt]

theorem val_lt_two_pow_bitwidth (v : Value) : v.val < 2 ^ bitwidth v := bitwidth_le_iff.1 le_rfl

theorem bitwidth_le_128 (v : Value) : bitwidth v ≤ 128 := bitwidth_le_iff.2 v.val_lt

theorem bitwidth_pos {v : Value} (h : v ≠ Value.zero) : 0 < bitwidth v :=
  lt_bitwidth_iff.2 (Value.val_pos_of_ne_zero h)

theorem two_pow_bitwidth_sub_one_le {v : Value} (h : v ≠ Value.zero) : 2 ^ (bitwidth v - 1) ≤ v.val :=
  lt_bitwidth_iff.1 (Nat.sub_one_lt_of_lt (bitwidth_pos h))

theorem bitwidth_mono {v w : Value} (h : v.val ≤ w.val) : bitwidth v ≤ bitwidth w :=
  bitwidth_le_iff.2 (h.trans_lt (val_lt_two_pow_bitwidth w))

/-! ### Where the loop starts (R251, R252) -/

section Alignment

variable {n d : Value}

/-- Lined up with the dividend, the divisor still ends below bit 128. -/
theorem val_shl128_bitwidth_sub (hle : d.val ≤ n.val) :
    (shl128 d (bitwidth n - bitwidth d)).val = d.val * 2 ^ (bitwidth n - bitwidth d) := by
  apply val_shl128_of_lt
  calc d.val * 2 ^ (bitwidth n - bitwidth d)
      < 2 ^ bitwidth d * 2 ^ (bitwidth n - bitwidth d) :=
        Nat.mul_lt_mul_of_pos_right (val_lt_two_pow_bitwidth d) (Nat.two_pow_pos _)
    _ = 2 ^ bitwidth n := by rw [← Nat.pow_add, Nat.add_sub_cancel' (bitwidth_mono hle)]
    _ ≤ 2 ^ 128 := Nat.pow_le_pow_right (by decide) (bitwidth_le_128 n)

/-- The dividend is below twice the divisor lined up with it. -/
theorem val_lt_mul_two_pow_bitwidth_sub (hd : d ≠ Value.zero) (hle : d.val ≤ n.val) :
    n.val < d.val * 2 ^ (bitwidth n - bitwidth d + 1) := by
  have hwidth : bitwidth n = bitwidth d - 1 + (bitwidth n - bitwidth d + 1) := by
    have hpos := bitwidth_pos hd
    have hmono := bitwidth_mono hle
    omega
  calc n.val < 2 ^ bitwidth n := val_lt_two_pow_bitwidth n
    _ = 2 ^ (bitwidth d - 1) * 2 ^ (bitwidth n - bitwidth d + 1) := by rw [← Nat.pow_add, ← hwidth]
    _ ≤ d.val * 2 ^ (bitwidth n - bitwidth d + 1) := Nat.mul_le_mul_right _ (two_pow_bitwidth_sub_one_le hd)

/-- No place the divisor passes on its way back makes it 0. -/
theorem lt128_zero_shr128_shl128 (hd : d ≠ Value.zero) (hle : d.val ≤ n.val) {k : Nat}
    (hk : k ≤ bitwidth n - bitwidth d) :
    lt128 Value.zero (shr128 (shl128 d (bitwidth n - bitwidth d)) k) = true := by
  rw [lt128_iff, Value.val_zero, val_shr128, val_shl128_bitwidth_sub hle]
  apply Nat.div_pos _ (Nat.two_pow_pos k)
  exact (Nat.pow_le_pow_right (by decide) hk).trans (Nat.le_mul_of_pos_left _ (Value.val_pos_of_ne_zero hd))

end Alignment

/-! ### The loop and the divider (R250, R251) -/

/-- `m` rounds, from the divisor and the quotient bit at place `m - 1`, divide a remainder below `d * 2^m`. -/
theorem divLoop_eq_ofNat (d m : Nat) {a b q r : Value} (ha : a.val = d * 2 ^ m / 2) (hb : b.val = 2 ^ m / 2)
    (hr : r.val < d * 2 ^ m) (hq : q.val + r.val / d < 2 ^ 128) :
    divLoop m a b q r = (Value.ofNat (q.val + r.val / d), Value.ofNat (r.val % d)) := by
  induction m generalizing a b q r with
  | zero =>
    rw [Nat.pow_zero, Nat.mul_one] at hr
    rw [Nat.div_eq_of_lt hr, Nat.mod_eq_of_lt hr, Nat.add_zero, Value.ofNat_val, Value.ofNat_val]
    rfl
  | succ m ih =>
    rw [Nat.pow_succ, ← Nat.mul_assoc] at hr
    rw [Nat.pow_succ, ← Nat.mul_assoc, Nat.mul_div_cancel _ Nat.two_pos] at ha
    rw [Nat.pow_succ, Nat.mul_div_cancel _ Nat.two_pos] at hb
    have ha' : (shr128 a 1).val = d * 2 ^ m / 2 := by rw [val_shr128, ha, Nat.pow_one]
    have hb' : (shr128 b 1).val = 2 ^ m / 2 := by rw [val_shr128, hb, Nat.pow_one]
    rw [divLoop]
    by_cases hzero : r = Value.zero
    · rw [if_pos hzero, hzero, Value.val_zero, Nat.zero_div, Nat.zero_mod, Nat.add_zero, Value.ofNat_val]
      rfl
    rw [if_neg hzero]
    by_cases hlt : lt128 r a = true
    · rw [if_pos hlt]
      rw [lt128_iff, ha] at hlt
      exact ih ha' hb' hlt hq
    · rw [if_neg hlt]
      rw [lt128_iff, Nat.not_lt] at hlt
      have hsub : (sub128 r a).val = r.val - d * 2 ^ m := by rw [val_sub128_of_le hlt, ha]
      rw [ha] at hlt
      have hd : 0 < d := Nat.pos_of_ne_zero fun h => by simp [h] at hr
      have hfits : 2 ^ m ≤ r.val / d := (Nat.le_div_iff_mul_le hd).2 (Nat.mul_comm d _ ▸ hlt)
      have hadd : (add128 q b).val = q.val + 2 ^ m := by rw [val_add128_of_lt (by omega), hb]
      have hquot : (add128 q b).val + (sub128 r a).val / d = q.val + r.val / d := by
        rw [hadd, hsub, Nat.sub_mul_div, Nat.add_assoc, Nat.add_sub_cancel' hfits]
      rw [ih ha' hb' (by omega) (hquot.trans_lt hq), hquot, hsub, Nat.sub_mul_mod hlt]

theorem divmod128_eq_ofNat (n : Value) {d : Value} (hd : d ≠ Value.zero) :
    divmod128 n d = (Value.ofNat (n.val / d.val), Value.ofNat (n.val % d.val)) := by
  unfold divmod128
  by_cases hlt : lt128 n d = true
  · rw [if_pos hlt]
    rw [lt128_iff] at hlt
    rw [Nat.div_eq_of_lt hlt, Nat.mod_eq_of_lt hlt, Value.ofNat_val]
    rfl
  · rw [if_neg hlt]
    rw [lt128_iff, Nat.not_lt] at hlt
    have hshift : bitwidth n - bitwidth d < 128 :=
      (Nat.sub_lt_of_pos_le (bitwidth_pos hd) (bitwidth_mono hlt)).trans_le (bitwidth_le_128 n)
    have hone : (shl128 Value.one (bitwidth n - bitwidth d)).val = 2 ^ (bitwidth n - bitwidth d) := by
      rw [val_shl128_of_lt, Value.val_one, Nat.one_mul]
      rw [Value.val_one, Nat.one_mul]
      exact Nat.pow_lt_pow_right (by decide) hshift
    have hquot : Value.zero.val + n.val / d.val = n.val / d.val := Nat.zero_add _
    rw [← hquot]
    apply divLoop_eq_ofNat
    · rw [val_shl128_bitwidth_sub hlt, Nat.pow_succ, ← Nat.mul_assoc, Nat.mul_div_cancel _ Nat.two_pos]
    · rw [hone, Nat.pow_succ, Nat.mul_div_cancel _ Nat.two_pos]
    · exact val_lt_mul_two_pow_bitwidth_sub hd hlt
    · rw [hquot]
      exact (Nat.div_le_self _ _).trans_lt n.val_lt

theorem val_divmod128_fst (n : Value) {d : Value} (hd : d ≠ Value.zero) : (divmod128 n d).1.val = n.val / d.val := by
  rw [divmod128_eq_ofNat n hd, Value.val_ofNat]
  exact Nat.mod_eq_of_lt ((Nat.div_le_self _ _).trans_lt n.val_lt)

theorem val_divmod128_snd (n : Value) {d : Value} (hd : d ≠ Value.zero) : (divmod128 n d).2.val = n.val % d.val := by
  rw [divmod128_eq_ofNat n hd, Value.val_ofNat]
  exact Nat.mod_eq_of_lt ((Nat.mod_le _ _).trans_lt n.val_lt)

theorem val_divmod128_snd_lt (n : Value) {d : Value} (hd : d ≠ Value.zero) : (divmod128 n d).2.val < d.val := by
  rw [val_divmod128_snd n hd]
  exact Nat.mod_lt _ (Value.val_pos_of_ne_zero hd)

/-- The division invariant, with the product and the sum of the block (R257). -/
theorem add128_mul128_divmod128 (n : Value) {d : Value} (hd : d ≠ Value.zero) :
    add128 (mul128 d (divmod128 n d).1) (divmod128 n d).2 = n := by
  apply Value.val_injective
  rw [val_add128, mul128_eq_ofNat, Value.val_ofNat, Nat.mod_add_mod, val_divmod128_fst n hd, val_divmod128_snd n hd,
    Nat.div_add_mod, Nat.mod_eq_of_lt n.val_lt]

/-- The quotient by one limb stays in one limb exactly when the dividend's high limb is below the divisor (R258). -/
theorem divmod128_fst_high_eq_zero_iff (n : Value) {d : Value} (hd : d ≠ Value.zero) (hhigh : d.high = 0) :
    (divmod128 n d).1.high = 0 ↔ n.high < d.low := by
  have hlow := n.low.isLt
  have hval : d.val = d.low.toNat := by simp [Value.val, hhigh]
  rw [Value.high_eq_zero_iff, val_divmod128_fst n hd, Nat.div_lt_iff_lt_mul (Value.val_pos_of_ne_zero hd), hval,
    BitVec.lt_def, Value.val]
  omega

/-! ### How DIVMOD, DIV and REM end (R253 to R256) -/

section Divisor

variable {i : Instr} {s : State} {d : Value} {r : Result}

theorem raises_of_withDivisor_zero (h : exec i s = withDivisor (encode i) d s r) (hd : d = Value.zero) :
    Raises i s .divisionByZero 0 := by
  rw [Raises, h, withDivisor, if_pos hd]
  exact raiseError_recorded _ _ _ s

theorem exec_of_withDivisor_ne_zero {c : CmdWord} (h : exec i s = withDivisor c d s r) (hd : d ≠ Value.zero) :
    exec i s = r := h.trans (if_neg hd)

end Divisor

theorem exec_divmod_of_ne {rd rd2 : Reg} (hne : rd ≠ rd2) (rs1 rs2 : Reg) (s : State) :
    exec (.divmod rd rd2 rs1 rs2) s = withDivisor (encode (.divmod rd rd2 rs1 rs2)) (readReg s rs2) s
      (finish2 rd (divmod128 (readReg s rs1) (readReg s rs2)).1 rd2 (divmod128 (readReg s rs1) (readReg s rs2)).2 s) :=
  if_neg hne

theorem completesWith2_of_finish2 {i : Instr} {s : State} {rd rd2 : Reg} {x y x2 y2 : Value} (hne : rd ≠ rd2)
    (h : exec i s = finish2 rd x rd2 x2 s) (hxy : x = y) (hxy2 : x2 = y2) : CompletesWith2 i s rd y rd2 y2 := by
  rw [CompletesWith2, h, ← hxy, ← hxy2]
  exact finish2_wrote hne x x2 s

/-! ### The obligations of 45_divide.md -/

/-- Settles O54: the loop's start from the two widths, and its result from the bound on the remainder. -/
theorem restoringDividerDivides : Obligations.RestoringDividerDivides := by
  unfold Obligations.RestoringDividerDivides
  refine ⟨bitwidth_zero, fun n d hd => ⟨divmod128_eq_ofNat n hd, val_divmod128_snd_lt n hd,
    two_pow_bitwidth_sub_one_le hd, val_lt_two_pow_bitwidth d, fun hnlt => ?_⟩⟩
  have hle : d.val ≤ n.val := not_lt128_iff.1 (by rw [hnlt]; rfl)
  exact ⟨bitwidth_pos hd, bitwidth_mono hle, bitwidth_le_128 n, val_shl128_bitwidth_sub hle,
    fun k hk => lt128_zero_shr128_shl128 hd hle hk⟩

/-- Settles O55: the invariant is that of the numbers, and one limb holds a number below `2^64`. -/
theorem divisionInvariantAndNarrowDivide : Obligations.DivisionInvariantAndNarrowDivide := by
  unfold Obligations.DivisionInvariantAndNarrowDivide
  intro n d hd
  have hrem := val_divmod128_snd_lt n hd
  refine ⟨add128_mul128_divmod128 n hd, lt128_iff.2 hrem, ?_, fun hhigh => ⟨?_, ?_⟩⟩
  · rw [val_divmod128_fst n hd]
    exact Nat.mul_div_le _ _
  · exact Value.high_eq_zero_iff.2 (hrem.trans (Value.high_eq_zero_iff.1 hhigh))
  · exact divmod128_fst_high_eq_zero_iff n hd hhigh

/-- Settles O26: all three commands test the divisor before they divide. -/
theorem zeroDivisorIsRecorded : Obligations.ZeroDivisorIsRecorded := by
  unfold Obligations.ZeroDivisorIsRecorded
  intro s rd rd2 rs1 rs2 hzero
  exact ⟨fun hne => raises_of_withDivisor_zero (exec_divmod_of_ne hne rs1 rs2 s) hzero,
    raises_of_withDivisor_zero rfl hzero, raises_of_withDivisor_zero rfl hzero⟩

/-- Settles O25: past the zero test the three commands write what the divider gives. -/
theorem divideResults : Obligations.DivideResults := by
  unfold Obligations.DivideResults
  intro s rd rd2 rs1 rs2
  have hdivmod := fun hne : rd ≠ rd2 => exec_divmod_of_ne hne rs1 rs2 s
  have hquot := fun hd => congrArg Prod.fst (divmod128_eq_ofNat (readReg s rs1) (d := readReg s rs2) hd)
  have hrem := fun hd => congrArg Prod.snd (divmod128_eq_ofNat (readReg s rs1) (d := readReg s rs2) hd)
  refine ⟨fun hne => ⟨?_, raises_of_withDivisor_zero (hdivmod hne), fun hd => ?_⟩,
    ⟨?_, raises_of_withDivisor_zero rfl, fun hd => ?_⟩, ⟨?_, raises_of_withDivisor_zero rfl, fun hd => ?_⟩⟩
  · exact spells_of_encode (Laws.EncodedFields.divmod rd rd2 rs1 rs2) (bne_iff_ne.2 hne) rfl
  · exact completesWith2_of_finish2 hne (exec_of_withDivisor_ne_zero (hdivmod hne) hd) (hquot hd) (hrem hd)
  · exact spells_of_encode (Laws.EncodedFields.div rd rs1 rs2) rfl rfl
  · exact completesWith_of_finish (exec_of_withDivisor_ne_zero rfl hd) (hquot hd)
  · exact spells_of_encode (Laws.EncodedFields.rem rd rs1 rs2) rfl rfl
  · exact completesWith_of_finish (exec_of_withDivisor_ne_zero rfl hd) (hrem hd)

end Sys2Proof.Machine

/-! ## 46_text_codec.md: digits and numerals, and the commands of the text codec

One step of PARSE or DACC appends a digit to the numeral read so far, on numbers `n ↦ d + base * n`; one round of FORMAT
or DDIV takes the last digit off. The first is `Nat.ofDigits` read from the front, the second `Nat.digits`, and they
undo each other. -/

namespace Sys2Proof.Machine

/-! ### The radix check (R270) and the errors of the family -/

theorem radixOk_iff {base : BitVec 8} : radixOk base = true ↔ 2 ≤ base.toNat ∧ base.toNat ≤ 36 := by
  rw [radixOk, Bool.and_eq_true, decide_eq_true_eq, decide_eq_true_eq, Config.radixMin, Config.radixMax]

theorem raises_of_raiseError {i : Instr} {s : State} {e : ErrorKind} {idx : BitVec 8}
    (h : exec i s = raiseError e (encode i) idx s) : Raises i s e idx := by
  rw [Raises, h]
  exact raiseError_recorded e (encode i) idx s

section Radix

variable {i : Instr} {s : State} {base : BitVec 8} {r : Result}

theorem raises_of_withRadix_bad (h : exec i s = withRadix (encode i) base s r)
    (hbad : ¬ (2 ≤ base.toNat ∧ base.toNat ≤ 36)) : Raises i s .outOfRange 0 :=
  raises_of_raiseError (h.trans (if_neg (mt radixOk_iff.1 hbad)))

theorem exec_of_withRadix_ok {c : CmdWord} (h : exec i s = withRadix c base s r) (hlo : 2 ≤ base.toNat)
    (hhi : base.toNat ≤ 36) : exec i s = r :=
  h.trans (if_pos (radixOk_iff.2 ⟨hlo, hhi⟩))

end Radix

theorem exec_ddiv_of_ne {rd rd2 : Reg} (hne : rd ≠ rd2) (rs1 : Reg) (base : BitVec 8) (s : State) :
    exec (.ddiv rd rd2 rs1 base) s = withRadix (encode (.ddiv rd rd2 rs1 base)) base s
      (finish2 rd (divmod128 (readReg s rs1) (radixValue base)).1 rd2
        (Value.ofLow ((digitChar (divmod128 (readReg s rs1) (radixValue base)).2.low.toNat).setWidth 64)) s) :=
  if_neg hne

/-- Settles O33: each of the four commands makes the radix check first. -/
theorem radixOutOfRangeIsRecorded : Obligations.RadixOutOfRangeIsRecorded := by
  unfold Obligations.RadixOutOfRangeIsRecorded
  intro s rd rd2 rs1 base aux hbad
  exact ⟨raises_of_withRadix_bad rfl hbad, fun hne => raises_of_withRadix_bad (exec_ddiv_of_ne hne rs1 base s) hbad,
    raises_of_withRadix_bad rfl hbad, raises_of_withRadix_bad rfl hbad⟩

/-! ### Characters of digits (R271, R272) -/

theorem IsDigit.lt {base d : Nat} {c : Byte} (h : IsDigit base c d) : d < base := h.1

theorem digitChar_eq (d : Nat) : digitChar d = BitVec.ofNat 8 (digitCode d) := by
  unfold digitChar digitCode
  split
  · rfl
  · congr 1
    omega

theorem toNat_digitChar {d : Nat} (hd : d < 36) : (digitChar d).toNat = digitCode d := by
  rw [digitChar_eq, BitVec.toNat_ofNat]
  unfold digitCode
  split <;> omega

theorem isDigit_digitChar {base d : Nat} (hd : d < base) (hbase : base ≤ 36) : IsDigit base (digitChar d) d := by
  refine ⟨hd, ?_⟩
  rw [toNat_digitChar (hd.trans_le hbase), digitCode]
  split <;> omega

theorem ofLow_digitChar {d : Nat} (hd : d < 36) :
    Value.ofLow ((digitChar d).setWidth 64) = Value.ofNat (digitCode d) := by
  apply Value.eq_ofNat_of_val_eq
  rw [Value.val_ofLow, BitVec.toNat_setWidth_of_le (by decide), toNat_digitChar hd]

/-! ### The radix on the datapath: one digit appended, one digit taken off (R273, R274) -/

theorem val_radixValue (base : BitVec 8) : (radixValue base).val = base.toNat := by
  rw [radixValue, Value.val_ofLow, BitVec.toNat_setWidth_of_le (by decide)]

theorem accumulate_eq_ofNat {base : BitVec 8} {d : Nat} (hd : d < base.toNat) (acc : Value) :
    accumulate base acc d = Value.ofNat (acc.val * base.toNat + d) := by
  have hlow : (Value.ofLow (BitVec.ofNat 64 d)).val = d := by
    have := base.isLt
    rw [Value.val_ofLow, BitVec.toNat_ofNat]
    omega
  apply Value.eq_ofNat
  rw [accumulate, val_add128, hlow, mul128_eq_ofNat, Value.val_ofNat, val_radixValue, Nat.mod_add_mod]

theorem divmod128_radixValue {base : BitVec 8} (hlo : 2 ≤ base.toNat) (v : Value) :
    divmod128 v (radixValue base) = (Value.ofNat (v.val / base.toNat), Value.ofNat (v.val % base.toNat)) := by
  have hd : radixValue base ≠ Value.zero := by
    rw [← Value.val_inj.ne, val_radixValue, Value.val_zero]
    omega
  rw [divmod128_eq_ofNat v hd, val_radixValue]

theorem toNat_low_divmod128_radixValue {base : BitVec 8} (hlo : 2 ≤ base.toNat) (v : Value) :
    (divmod128 v (radixValue base)).2.low.toNat = v.val % base.toNat := by
  have := Nat.mod_lt v.val (show 0 < base.toNat by omega)
  have := base.isLt
  rw [divmod128_radixValue hlo, Value.low_ofNat, BitVec.toNat_ofNat]
  omega

theorem val_ofNat_div (v : Value) (n : Nat) : (Value.ofNat (v.val / n)).val = v.val / n := by
  rw [Value.val_ofNat, Nat.mod_eq_of_lt ((Nat.div_le_self _ _).trans_lt v.val_lt)]

/-! ### DACC and DDIV -/

section Digit

variable {base : BitVec 8} (hlo : 2 ≤ base.toNat) (hhi : base.toNat ≤ 36)

include hlo hhi

theorem completesWith_dacc {aux : Byte} {d : Nat} (hd : IsDigit base.toNat aux d) (rd rs1 : Reg) (s : State) :
    CompletesWith (.dacc rd rs1 base aux) s rd (accumulate base (readReg s rs1) d) := by
  refine completesWith_of_finish ((exec_of_withRadix_ok rfl hlo hhi).trans ?_) rfl
  rw [digitValue_eq_some_iff.2 hd]

theorem raises_dacc_of_not_digit {aux : Byte} (hno : ¬ ∃ d, IsDigit base.toNat aux d) (rd rs1 : Reg) (s : State) :
    Raises (.dacc rd rs1 base aux) s .invalidArgument 0 := by
  refine raises_of_raiseError ((exec_of_withRadix_ok rfl hlo hhi).trans ?_)
  rw [digitValue_eq_none_iff.2 hno]

theorem completesWith2_ddiv {rd rd2 : Reg} (hne : rd ≠ rd2) (rs1 : Reg) (s : State) :
    CompletesWith2 (.ddiv rd rd2 rs1 base) s rd (Value.ofNat ((readReg s rs1).val / base.toNat))
      rd2 (Value.ofNat (digitCode ((readReg s rs1).val % base.toNat))) := by
  have hdigit := Nat.mod_lt (readReg s rs1).val (show 0 < base.toNat by omega)
  refine completesWith2_of_finish2 hne (exec_of_withRadix_ok (exec_ddiv_of_ne hne rs1 base s) hlo hhi) ?_ ?_
  · rw [divmod128_radixValue hlo]
  · rw [toNat_low_divmod128_radixValue hlo, ofLow_digitChar (hdigit.trans_le hhi)]

end Digit

/-- Settles O28: past the radix check the character decides between one accumulation step and the error. -/
theorem daccResult : Obligations.DaccResult := by
  unfold Obligations.DaccResult
  intro s rd rs1 base aux
  refine ⟨spells_of_encode (Laws.EncodedFields.dacc rd rs1 base aux) rfl rfl, raises_of_withRadix_bad rfl,
    fun hlo hhi => ⟨fun d hd => ?_, fun hno => raises_dacc_of_not_digit hlo hhi hno rd rs1 s⟩⟩
  rw [← accumulate_eq_ofNat hd.lt]
  exact completesWith_dacc hlo hhi hd rd rs1 s

/-- Settles O29: past the radix check DDIV takes one digit off. -/
theorem ddivResult : Obligations.DdivResult := by
  unfold Obligations.DdivResult
  intro s rd rd2 rs1 base hne
  exact ⟨spells_of_encode (Laws.EncodedFields.ddiv rd rd2 rs1 base) (bne_iff_ne.2 hne) rfl,
    raises_of_withRadix_bad (exec_ddiv_of_ne hne rs1 base s), fun hlo hhi => completesWith2_ddiv hlo hhi hne rs1 s⟩

/-! ### The numeral of a text of digits (R275, R278) -/

/-- The value of a row of digits, most significant first, modulo 2^128. -/
def numeralValue (base : Nat) (ds : List Nat) : Value := Value.ofNat (Nat.ofDigits base ds.reverse)

theorem numeralValue_nil (base : Nat) : numeralValue base [] = Value.zero := by
  rw [numeralValue, List.reverse_nil, Nat.ofDigits_nil]
  rfl

/-- One accumulation step appends its digit to the numeral. -/
theorem accumulate_numeralValue {base : BitVec 8} {d : Nat} (hd : d < base.toNat) (ds : List Nat) :
    accumulate base (numeralValue base.toNat ds) d = numeralValue base.toNat (ds ++ [d]) := by
  have hdigits : Nat.ofDigits base.toNat (ds ++ [d]).reverse = Nat.ofDigits base.toNat ds.reverse * base.toNat + d := by
    rw [List.reverse_append, List.reverse_singleton, List.singleton_append, Nat.ofDigits_cons, Nat.mul_comm,
      Nat.add_comm]
  rw [accumulate_eq_ofNat hd, numeralValue, numeralValue, hdigits]
  apply Value.val_injective
  simp only [Value.val_ofNat]
  rw [Nat.add_mod, Nat.mod_mul_mod, ← Nat.add_mod]

/-- The characters stand for the digits, one each. -/
abbrev Digits (base : Nat) : List Byte → List Nat → Prop := List.Forall₂ (IsDigit base)

/-- The loop of PARSE over digits appends them to the numeral read so far. -/
theorem parseChars_of_digits {base : BitVec 8} {cs : List Byte} {ds : List Nat} (h : Digits base.toNat cs ds)
    (k : Nat) (read : List Nat) :
    parseChars base k (numeralValue base.toNat read) cs = .ok (numeralValue base.toNat (read ++ ds)) := by
  induction h generalizing k read with
  | nil => rw [List.append_nil, parseChars]
  | cons hd _ ih =>
    simp only [parseChars, digitValue_eq_some_iff.2 hd, accumulate_numeralValue hd.lt, ih, List.append_assoc,
      List.singleton_append]

/-- The loop of PARSE gets to the end over digits only. -/
theorem exists_isDigit_of_parseChars_ok {base : BitVec 8} {cs : List Byte} {k : Nat} {acc v : Value}
    (h : parseChars base k acc cs = .ok v) : ∀ c ∈ cs, ∃ d, IsDigit base.toNat c d := by
  induction cs generalizing k acc with
  | nil => exact nofun
  | cons c cs ih =>
    rw [parseChars] at h
    cases hc : digitValue c base with
    | none => simp [hc] at h
    | some d =>
      have hcs : parseChars base (k + 1) (accumulate base acc d) cs = .ok v := by simpa [hc] using h
      exact List.forall_mem_cons.2 ⟨⟨d, digitValue_eq_some_iff.1 hc⟩, ih hcs⟩

/-- Characters that are all digits stand for some row of digits. -/
theorem exists_digits {base : Nat} {cs : List Byte} (h : ∀ c ∈ cs, ∃ d, IsDigit base c d) :
    ∃ ds, Digits base cs ds := by
  induction cs with
  | nil => exact ⟨[], .nil⟩
  | cons c cs ih =>
    obtain ⟨⟨d, hd⟩, hcs⟩ := List.forall_mem_cons.1 h
    obtain ⟨ds, hds⟩ := ih hcs
    exact ⟨d :: ds, .cons hd hds⟩

theorem digits_of_tbRead {s : State} {base n : Nat} {ds : List Nat} (hlen : ds.length = n)
    (h : ∀ k (hk : k < ds.length), IsDigit base (tbRead s k) ds[k]) :
    Digits base ((List.range n).map (tbRead s)) ds :=
  List.forall₂_iff_get.2 ⟨by simp [hlen], fun k _ hk => by simpa using h k hk⟩

theorem FirstBadAt.unique {s : State} {base : BitVec 8} {j k : Nat} (hj : FirstBadAt s base j)
    (hk : FirstBadAt s base k) : j = k := by
  obtain ⟨-, hbadj, hgoodj⟩ := hj
  obtain ⟨-, hbadk, hgoodk⟩ := hk
  exact Nat.le_antisymm (Nat.not_lt.1 fun hlt => hbadk (hgoodj k hlt)) (Nat.not_lt.1 fun hlt => hbadj (hgoodk j hlt))

/-! ### PARSE -/

section Parse

variable {base : BitVec 8} (hlo : 2 ≤ base.toNat) (hhi : base.toNat ≤ 36) {s : State} (rd : Reg)

include hlo hhi

theorem raises_parse_of_empty (hlen : s.tlen.val = 0) : Raises (.parse rd base) s .invalidArgument 0 :=
  raises_of_raiseError ((exec_of_withRadix_ok rfl hlo hhi).trans (if_pos (Fin.ext hlen)))

theorem exec_parse_of_ok (hlen : 0 < s.tlen.val) {v : Value} (h : parseChars base 0 Value.zero (tbText s) = .ok v) :
    exec (.parse rd base) s = finish rd v s :=
  (exec_of_withRadix_ok rfl hlo hhi).trans ((if_neg (Fin.pos_iff_ne_zero.1 hlen)).trans (by rw [h]))

theorem exec_parse_of_error (hlen : 0 < s.tlen.val) {k : Nat}
    (h : parseChars base 0 Value.zero (tbText s) = .error k) :
    exec (.parse rd base) s = raiseError .invalidArgument (encode (.parse rd base)) (BitVec.ofNat 8 k) s :=
  (exec_of_withRadix_ok rfl hlo hhi).trans ((if_neg (Fin.pos_iff_ne_zero.1 hlen)).trans (by rw [h]))

theorem completesWith_parse (hlen : 0 < s.tlen.val) {ds : List Nat} (h : Digits base.toNat (tbText s) ds) :
    CompletesWith (.parse rd base) s rd (numeralValue base.toNat ds) := by
  have hloop := parseChars_of_digits h 0 []
  rw [numeralValue_nil, List.nil_append] at hloop
  exact completesWith_of_finish (exec_parse_of_ok hlo hhi rd hlen hloop) rfl

theorem raises_parse_of_firstBadAt {idx : BitVec 8} (h : FirstBadAt s base idx.toNat) :
    Raises (.parse rd base) s .invalidArgument idx := by
  have ⟨hidx, hbad, _⟩ := h
  cases hp : parseChars base 0 Value.zero (tbText s) with
  | ok v =>
    have hmem : tbRead s idx.toNat ∈ tbText s := List.mem_map_of_mem (List.mem_range.2 hidx)
    exact absurd (exists_isDigit_of_parseChars_ok hp _ hmem) hbad
  | error k =>
    have hexec := exec_parse_of_error hlo hhi rd (Nat.zero_lt_of_lt hidx) hp
    rw [(parseChars_tbText_error hp).unique h, BitVec.ofNat_toNat, BitVec.setWidth_eq] at hexec
    exact raises_of_raiseError hexec

end Parse

/-- Settles O30: past the radix check, an empty text, a first bad character, and a text of digits in turn. -/
theorem parseResult : Obligations.ParseResult := by
  unfold Obligations.ParseResult
  intro s rd base
  refine ⟨spells_of_encode (Laws.EncodedFields.parse rd base) rfl rfl, raises_of_withRadix_bad rfl,
    fun hlo hhi => ⟨raises_parse_of_empty hlo hhi rd, fun idx hidx hgood hbad => ?_, fun ds hlen hds h => ?_⟩⟩
  · exact raises_parse_of_firstBadAt hlo hhi rd ⟨hidx, hbad, hgood⟩
  · exact completesWith_parse hlo hhi rd hlen (digits_of_tbRead hds h)

/-! ### PARSE as one DACC per character (R279) -/

section Steps

variable {base : BitVec 8} (hlo : 2 ≤ base.toNat) (hhi : base.toNat ≤ 36) (rd : Reg)

include hlo hhi

/-- One DACC per digit appends the digits to the numeral the register holds. -/
theorem runInstrs_daccs {cs : List Byte} {ds : List Nat} (h : Digits base.toNat cs ds) {done : List Nat} {s : State}
    (hacc : readReg s rd = numeralValue base.toNat done) (hcode : statusCode s.status = 0) :
    ∃ u, runInstrs (cs.map (.dacc rd rd base)) s = .next u ∧ readReg u rd = numeralValue base.toNat (done ++ ds) ∧
      statusCode u.status = 0 := by
  induction h generalizing done s with
  | nil => exact ⟨s, rfl, by rw [hacc, List.append_nil], hcode⟩
  | @cons c d cs ds hd _ ih =>
    obtain ⟨t, ht, hw⟩ := completesWith_dacc hlo hhi hd rd rd s
    have hstep : readReg t rd = numeralValue base.toNat (done ++ [d]) := by
      rw [hw.dest, hacc, accumulate_numeralValue hd.lt]
    obtain ⟨u, hu, hrd, hcodeu⟩ := ih hstep hw.status.code
    refine ⟨u, (runInstrs_cons_next ht).trans hu, ?_, hcodeu⟩
    rw [hrd, List.append_assoc, List.singleton_append]

/-- LI 0 and one DACC per digit write the numeral. -/
theorem runInstrs_li_daccs {cs : List Byte} {ds : List Nat} (h : Digits base.toNat cs ds) (s : State) :
    ∃ u, runInstrs (.li rd 0 :: cs.map (.dacc rd rd base)) s = .next u ∧ readReg u rd = numeralValue base.toNat ds ∧
      statusCode u.status = 0 := by
  obtain ⟨t, ht, hw⟩ : CompletesWith (.li rd 0) s rd Value.zero := finish_wrote rd _ s
  obtain ⟨u, hu, hrd, hcode⟩ := runInstrs_daccs hlo hhi rd h (hw.dest.trans (numeralValue_nil _).symm) hw.status.code
  exact ⟨u, (runInstrs_cons_next ht).trans hu, hrd, hcode⟩

end Steps

theorem daccs_eq_map (s : State) (rd : Reg) (base : BitVec 8) (n : Nat) :
    ((List.range n).map fun k => Instr.dacc rd rd base (tbRead s k)) =
      ((List.range n).map (tbRead s)).map (.dacc rd rd base) := by
  rw [List.map_map]
  rfl

/-- Settles O57: PARSE and the steps both write the numeral, the steps also that of the digits before a bad character. -/
theorem parseIsASequenceOfDaccs : Obligations.ParseIsASequenceOfDaccs := by
  unfold Obligations.ParseIsASequenceOfDaccs
  intro s rd base hlo hhi hlen
  simp only [daccs_eq_map]
  refine ⟨fun hall => ?_, fun idx ds hidx hds h hbad => ⟨?_, ?_⟩⟩
  · obtain ⟨ds, hds⟩ : ∃ ds, Digits base.toNat (tbText s) ds := by
      apply exists_digits
      simpa [tbText] using hall
    obtain ⟨t, ht, hw⟩ := completesWith_parse hlo hhi rd hlen hds
    obtain ⟨u, hu, hrd, hcode⟩ := runInstrs_li_daccs hlo hhi rd hds s
    exact ⟨t, u, ht, hu, hw.dest.trans hrd.symm, hcode⟩
  · exact raises_parse_of_firstBadAt hlo hhi rd ⟨hidx, hbad, fun j hj => ⟨_, h j (hds.symm ▸ hj)⟩⟩
  · obtain ⟨u, hu, hrd, -⟩ := runInstrs_li_daccs hlo hhi rd (digits_of_tbRead hds h) s
    exact ⟨u, hu, hrd, raises_dacc_of_not_digit hlo hhi hbad rd rd u⟩

/-! ### The text of a number (R276, R277) -/

/-- The digits of a number, most significant first, padded on the left with 0 to at least `mind` of them. -/
def paddedDigits (base mind n : Nat) : List Nat :=
  List.replicate (mind - (Nat.digits base n).length) 0 ++ (Nat.digits base n).reverse

theorem numeral_eq_map (base mind n : Nat) : numeral base mind n = (paddedDigits base mind n).map digitChar := by
  rw [numeral, paddedDigits, List.map_append, List.map_replicate, List.map_reverse, funext digitChar_eq]
  rfl

theorem numeral_length (base mind n : Nat) : (numeral base mind n).length = max mind (Nat.digits base n).length := by
  simp only [numeral, List.length_append, List.length_replicate, List.length_reverse, List.length_map]
  omega

theorem numeral_eq_nil_iff {base mind n : Nat} : numeral base mind n = [] ↔ n = 0 ∧ mind = 0 := by
  rw [← List.length_eq_zero_iff, numeral_length, Nat.max_eq_zero_iff, List.length_eq_zero_iff,
    Nat.digits_eq_nil_iff_eq_zero, and_comm]

/-- Padding adds nothing to the number. -/
theorem ofDigits_paddedDigits (base mind n : Nat) : Nat.ofDigits base (paddedDigits base mind n).reverse = n := by
  rw [paddedDigits, List.reverse_append, List.reverse_reverse, List.reverse_replicate,
    Nat.ofDigits_append_replicate_zero, Nat.ofDigits_digits]

theorem numeralValue_paddedDigits (base mind : Nat) (v : Value) :
    numeralValue base (paddedDigits base mind v.val) = v := by
  rw [numeralValue, ofDigits_paddedDigits, Value.ofNat_val]

theorem lt_of_mem_paddedDigits {base mind n d : Nat} (hbase : 2 ≤ base) (h : d ∈ paddedDigits base mind n) :
    d < base := by
  obtain h | h := List.mem_append.1 h
  · obtain rfl := List.eq_of_mem_replicate h
    omega
  · exact Nat.digits_lt_base hbase (List.mem_reverse.1 h)

theorem digits_numeral {base : Nat} (hlo : 2 ≤ base) (hhi : base ≤ 36) (mind n : Nat) :
    Digits base (numeral base mind n) (paddedDigits base mind n) := by
  rw [numeral_eq_map, Digits, List.forall₂_map_left_iff, List.forall₂_same]
  exact fun d hd => isDigit_digitChar (lt_of_mem_paddedDigits hlo hd) hhi

/-- The character `k` places before the end of the text is that of the digit at `base^k`. -/
theorem getElem_numeral_before_end {base n k : Nat} (hbase : 2 ≤ base) (mind : Nat)
    (hk : k < (Nat.digits base n).length) (h : (numeral base mind n).length - 1 - k < (numeral base mind n).length) :
    (numeral base mind n)[(numeral base mind n).length - 1 - k] = digitChar (n / base ^ k % base) := by
  have hk' : k < (numeral base mind n).reverse.length := by
    rw [List.length_reverse, numeral_length]
    omega
  have hrev : (numeral base mind n).reverse =
      (Nat.digits base n).map digitChar ++ List.replicate (mind - (Nat.digits base n).length) (digitChar 0) := by
    rw [numeral_eq_map, paddedDigits, ← List.map_reverse, List.reverse_append, List.reverse_reverse,
      List.reverse_replicate, List.map_append, List.map_replicate]
  have hdigit : (Nat.digits base n)[k] = n / base ^ k % base := by
    rw [← Nat.getD_digits n k hbase, List.getD_eq_getElem _ _ hk]
  rw [← List.getElem_reverse hk']
  simp only [hrev, List.getElem_append_left (List.length_map digitChar ▸ hk), List.getElem_map, hdigit]

/-! ### FORMAT -/

/-- The rounds of FORMAT produce the digits from the least significant on, if the radix passes the value in time. -/
theorem formatDigits_eq_map {base : BitVec 8} (hlo : 2 ≤ base.toNat) {m : Nat} {v : Value}
    (hv : v.val < base.toNat ^ m) : formatDigits base m v = (Nat.digits base.toNat v.val).map digitChar := by
  induction m generalizing v with
  | zero =>
    have hzero : v.val = 0 := by simpa using hv
    rw [hzero, Nat.digits_zero, formatDigits, List.map_nil]
  | succ m ih =>
    rw [formatDigits]
    by_cases hzero : v = Value.zero
    · rw [if_pos hzero, hzero, Value.val_zero, Nat.digits_zero, List.map_nil]
    · have hquot : (divmod128 v (radixValue base)).1.val = v.val / base.toNat := by
        rw [divmod128_radixValue hlo, val_ofNat_div]
      have hfits : v.val / base.toNat < base.toNat ^ m :=
        Nat.div_lt_of_lt_mul (by rwa [Nat.pow_succ, Nat.mul_comm] at hv)
      simp only [if_neg hzero, toNat_low_divmod128_radixValue hlo, ih (hquot.trans_lt hfits), hquot]
      rw [Nat.digits_def' hlo (Value.val_pos_of_ne_zero hzero), List.map_cons]

theorem formatText_eq_numeral {base : BitVec 8} (hlo : 2 ≤ base.toNat) (mind : BitVec 8) (v : Value) :
    formatText v base mind = numeral base.toNat mind.toNat v.val := by
  have hrounds : v.val < base.toNat ^ 128 := v.val_lt.trans_le (Nat.pow_le_pow_left hlo 128)
  rw [numeral_eq_map, paddedDigits, formatText, formatDigits_eq_map hlo hrounds, List.map_append, List.map_replicate,
    List.map_reverse, List.length_reverse, List.length_map]
  rfl

theorem completesWithText_format {base : BitVec 8} (hlo : 2 ≤ base.toNat) (hhi : base.toNat ≤ 36) (mind : BitVec 8)
    (rs1 : Reg) (s : State) :
    CompletesWithText (.format rs1 base mind) s (numeral base.toNat mind.toNat (readReg s rs1).val) := by
  have hlen := formatText_length_le (readReg s rs1) base mind
  rw [CompletesWithText, exec_of_withRadix_ok rfl hlo hhi, ← formatText_eq_numeral hlo]
  exact complete_tbPutText_wrote (hlen.trans (by decide)) s

/-- Settles O32: past the radix check FORMAT puts the numeral, empty when there is neither digit nor padding. -/
theorem formatResult : Obligations.FormatResult := by
  unfold Obligations.FormatResult
  intro s rs1 base mind
  refine ⟨spells_of_encode (Laws.EncodedFields.format rs1 base mind) rfl rfl, raises_of_withRadix_bad rfl,
    fun hlo hhi => ⟨completesWithText_format hlo hhi mind rs1 s, ?_⟩⟩
  rw [numeral_eq_nil_iff, Value.val_eq_zero]

/-! ### FORMAT then PARSE (R281) -/

/-- The text in the buffer is the one just put there. -/
theorem WroteText.tbText_eq {s t : State} {bs : List Byte} (h : WroteText s t bs) : tbText t = bs := by
  apply List.ext_getElem
  · rw [tbText_length, h.tlen]
  · intro k _ hk
    simpa [tbText] using h.inside k hk

/-- Settles O56: PARSE reads the padded digits that FORMAT wrote, unless there are none. -/
theorem formatThenParseRoundTrip : Obligations.FormatThenParseRoundTrip := by
  unfold Obligations.FormatThenParseRoundTrip
  intro s rd rs1 base mind hlo hhi
  obtain ⟨t, ht, hput⟩ := completesWithText_format hlo hhi mind rs1 s
  by_cases hempty : readReg s rs1 = Value.zero ∧ mind.toNat = 0
  · have hlen : t.tlen.val = 0 := by
      rw [hput.tlen, List.length_eq_zero_iff, numeral_eq_nil_iff, Value.val_eq_zero]
      exact hempty
    obtain ⟨u, hu, hr⟩ := raises_parse_of_empty hlo hhi rd hlen
    obtain ⟨hzero, hmind⟩ := hempty
    exact ⟨t, u, ht, hu, fun h => absurd h (by simp [hzero, hmind]), fun _ _ => ⟨hlen, hr⟩⟩
  · have hlen : 0 < t.tlen.val := by
      rw [hput.tlen, List.length_pos_iff, Ne, numeral_eq_nil_iff, Value.val_eq_zero]
      exact hempty
    have hdigits := digits_numeral hlo hhi mind.toNat (readReg s rs1).val
    rw [← hput.tbText_eq] at hdigits
    obtain ⟨u, hu, hw⟩ := completesWith_parse hlo hhi rd hlen hdigits
    rw [numeralValue_paddedDigits] at hw
    exact ⟨t, u, ht, hu, fun _ => ⟨hw.dest, hw.status.code⟩, fun hmind hzero => absurd ⟨hzero, hmind⟩ hempty⟩

/-! ### FORMAT as repeated DDIV (R280) -/

/-- The `k + 1`st DDIV of a value takes off the digit at `base^k`. -/
theorem runInstrs_ddivs {base : BitVec 8} (hlo : 2 ≤ base.toNat) (hhi : base.toNat ≤ 36) {v c : Reg} (hne : v ≠ c)
    (k : Nat) (s : State) :
    ∃ u, runInstrs (List.replicate (k + 1) (.ddiv v c v base)) s = .next u ∧
      readReg u v = Value.ofNat ((readReg s v).val / base.toNat ^ (k + 1)) ∧
      readReg u c = Value.ofNat (digitCode ((readReg s v).val / base.toNat ^ k % base.toNat)) ∧ SameText s u := by
  induction k generalizing s with
  | zero =>
    obtain ⟨t, ht, hw⟩ := completesWith2_ddiv hlo hhi hne v s
    refine ⟨t, runInstrs_cons_next ht, ?_, ?_, hw.text⟩
    · rw [hw.dest, Nat.zero_add, Nat.pow_one]
    · rw [hw.dest2, Nat.pow_zero, Nat.div_one]
  | succ k ih =>
    obtain ⟨t, ht, hw⟩ := completesWith2_ddiv hlo hhi hne v s
    obtain ⟨u, hu, hv, hc, htext⟩ := ih t
    rw [hw.dest, val_ofNat_div, Nat.div_div_eq_div_mul, ← Nat.pow_succ'] at hv hc
    refine ⟨u, (runInstrs_cons_next ht).trans hu, hv, hc, htext.tlen.trans hw.text.tlen, fun j => ?_⟩
    rw [htext.bytes, hw.text.bytes]

/-- Settles O58: FORMAT and the steps write the same digit, and the quotient lasts as long as there are digits. -/
theorem formatIsASequenceOfDdivs : Obligations.FormatIsASequenceOfDdivs := by
  unfold Obligations.FormatIsASequenceOfDdivs
  intro s v c base mind k hlo hhi hne hk
  obtain ⟨t, ht, hput⟩ := completesWithText_format hlo hhi mind v s
  obtain ⟨u, hu, hv, hc, htext⟩ := runInstrs_ddivs hlo hhi hne k s
  have hlen : k < t.tlen.val := by
    rw [hput.tlen, numeral_length]
    omega
  have hdigit := Nat.mod_lt ((readReg s v).val / base.toNat ^ k) (show 0 < base.toNat by omega)
  have hchar : tbRead t (t.tlen.val - 1 - k) = digitChar ((readReg s v).val / base.toNat ^ k % base.toNat) := by
    rw [hput.tlen, hput.inside _ (by rw [← hput.tlen]; omega), getElem_numeral_before_end hlo _ hk]
  refine ⟨t, u, ht, hu, hlen, ?_, htext, ?_⟩
  · rw [hc, hchar, toNat_digitChar (hdigit.trans_le hhi)]
  · rw [Nat.lt_digits_length_iff hlo, hv, ← Value.val_eq_zero.ne, val_ofNat_div, Nat.div_ne_zero_iff]
    have := Nat.pow_pos (n := k + 1) (show 0 < base.toNat by omega)
    omega

/-! ### Digit counts (R282) -/

theorem digits_length_eq {base n k : Nat} (hbase : 2 ≤ base) (hlow : base ^ k ≤ n) (hhigh : n < base ^ (k + 1)) :
    (Nat.digits base n).length = k + 1 :=
  Nat.le_antisymm ((Nat.digits_length_le_iff hbase n).2 hhigh) ((Nat.lt_digits_length_iff hbase n).2 hlow)

/-- The text of `2^128 - 1` is as long as the least power of the radix that reaches `2^128`. -/
theorem formatText_max_length {base : BitVec 8} {k : Nat} (hlo : 2 ≤ base.toNat)
    (hlow : base.toNat ^ k ≤ 2 ^ 128 - 1) (hhigh : 2 ^ 128 - 1 < base.toNat ^ (k + 1)) :
    (formatText (Value.ofNat (2 ^ 128 - 1)) base 0).length = k + 1 := by
  have hval : (Value.ofNat (2 ^ 128 - 1)).val = 2 ^ 128 - 1 := Value.val_ofNat _
  rw [formatText_eq_numeral hlo, numeral_length, hval, digits_length_eq hlo hlow hhigh]
  exact Nat.zero_max _

/-- HEX fills 32 places, and no value has more hexadecimal digits. -/
theorem exec_hex_tlen (s : State) (r : Reg) : ∃ t, exec (.format r 16 32) s = .next t ∧ t.tlen.val = 32 := by
  obtain ⟨t, ht, hput⟩ := completesWithText_format (base := 16) (by decide) (by decide) 32 r s
  refine ⟨t, ht, ?_⟩
  have hdigits : (Nat.digits 16 (readReg s r).val).length ≤ 32 :=
    (Nat.digits_length_le_iff (by decide) _).2 (readReg s r).val_lt
  rw [hput.tlen, numeral_length]
  exact Nat.max_eq_left hdigits

/-- Settles O59: each count is that of the powers of the radix around the value. -/
theorem digitCountsOfTheLargestValue : Obligations.DigitCountsOfTheLargestValue := by
  unfold Obligations.DigitCountsOfTheLargestValue
  refine ⟨formatText_max_length (by decide) (by decide) (by decide),
    formatText_max_length (by decide) (by decide) (by decide),
    formatText_max_length (by decide) (by decide) (by decide),
    formatText_max_length (by decide) (by decide) (by decide),
    formatText_max_length (by decide) (by decide) (by decide), fun s r => ?_⟩
  obtain ⟨t, ht, hlen⟩ := exec_hex_tlen s r
  exact ⟨t, runInstrs_cons_next ht, hlen⟩

end Sys2Proof.Machine

/-! ## 60_exceptions.md: errors are recorded, and the block goes on

What a command, a host operation and a rejected word can do is said by `exec_cases`, `performHostOp_next` and
`issueIsIllegal_of_decode_error`. New here is only that a text with a bad character has a first one. -/

namespace Sys2Proof.Machine

/-! ### The block never stops (R310, R319) -/

/-- Settles O5: the block is idle, or performs the oldest host operation, which answers a next state. -/
theorem stepAlwaysAnswersNext : Obligations.StepAlwaysAnswersNext := by
  unfold Obligations.StepAlwaysAnswersNext
  intro s
  cases hp : s.pending with
  | nil => exact ⟨s, step_idle hp⟩
  | cons op rest =>
    obtain ⟨t, ht, -⟩ := performHostOp_next op (takeOp rest s)
    exact ⟨t, (step_pending hp).trans ht⟩

/-- Settles O6: an empty waiting list is the idle case of `step`. -/
theorem idleStepChangesNothing : Obligations.IdleStepChangesNothing := fun _ => step_idle

/-! ### Errors (R301, R303 to R305, R307) -/

/-- Settles O12: `issue` records a rejected word whatever the cause. -/
theorem illegalWordIsRecorded : Obligations.IllegalWordIsRecorded := fun s _ _ h => issueIsIllegal_of_decode_error h s

/-- Settles O34: of the four endings of a command three leave the status registers clean and one is the record. -/
theorem commandCompletesOrRecordsOneError : Obligations.CommandCompletesOrRecordsOneError := by
  unfold Obligations.CommandCompletesOrRecordsOneError
  intro i s
  obtain ⟨t, ht, -⟩ := exec_cases i s
  exact ⟨t, ht, exec_clean_or_recorded ht⟩

/-- A text with a bad character has a first one, and its index fits in ERRIDX. -/
theorem exists_firstBadAt_le {s : State} {base : BitVec 8} {k : Nat} (hk : k < s.tlen.val)
    (hbad : ¬ ∃ d, IsDigit base.toNat (tbRead s k) d) :
    ∃ idx : BitVec 8, idx.toNat ≤ k ∧ FirstBadAt s base idx.toNat := by
  classical
  have hex : ∃ j, ¬ ∃ d, IsDigit base.toNat (tbRead s j) d := ⟨k, hbad⟩
  have hle : Nat.find hex ≤ k := Nat.find_min' hex hbad
  have hlen := s.tlen.isLt
  have hidx : (BitVec.ofNat 8 (Nat.find hex)).toNat = Nat.find hex := by
    rw [BitVec.toNat_ofNat, Nat.mod_eq_of_lt (by omega)]
  refine ⟨BitVec.ofNat 8 (Nat.find hex), ?_⟩
  rw [hidx]
  exact ⟨hle, hle.trans_lt hk, Nat.find_spec hex, fun j hj => not_not.1 (Nat.find_min hex hj)⟩

/-- Settles O31: PARSE stops on the first bad character, which stands no later than the given one. -/
theorem invalidArgumentIsRecorded : Obligations.InvalidArgumentIsRecorded := by
  unfold Obligations.InvalidArgumentIsRecorded
  intro s rd rs1 base aux hlo hhi
  refine ⟨raises_parse_of_empty hlo hhi rd, fun k hk hbad => ?_, fun hno =>
    raises_dacc_of_not_digit hlo hhi hno rd rs1 s⟩
  obtain ⟨idx, hle, hfirst⟩ := exists_firstBadAt_le hk hbad
  exact ⟨idx, hle, raises_parse_of_firstBadAt hlo hhi rd hfirst⟩

end Sys2Proof.Machine

/-! ## 30_encoding.md: encoding and decoding are inverse to each other

That a command's encoding carries its fields is one lemma per constructor in `Laws.EncodedFields`, gathered here; that a
legal word is made of its fields is `encode_of_decode`. -/

namespace Sys2Proof.Laws.EncodedFields

/-- The lemmas stand in the order of the constructors, which is that of the opcode map (R105). -/
theorem statement_of_instr (i : Instr) : Statement i :=
  i.casesOn mov li pair gethi cnz zext8 zext16 zext32 zext64 sext8 sext16 sext32 sext64
    not and or xor shli shri shl shr roli rori rol ror
    add sub inc dec ceq cne clt cle cgt cge mul
    divmod div rem dacc ddiv parse format

end Sys2Proof.Laws.EncodedFields

namespace Sys2Proof.Machine

/-- Settles O8: the encoding selects the command's row, passes its must-be-zero test, and its fields make the command
again; the command being well formed, the decoder answers it. -/
theorem decodeOfEncodeIsTheCommand : Obligations.DecodeOfEncodeIsTheCommand := by
  unfold Obligations.DecodeOfEncodeIsTheCommand
  intro i hw
  exact spells_of_encode (Laws.EncodedFields.statement_of_instr i) hw rfl

/-- Settles O9: a word that decodes is made of its fields (R102), and the decoder tests the destinations last (R117). -/
theorem encodeOfDecodeIsTheWord : Obligations.EncodeOfDecodeIsTheWord := by
  unfold Obligations.EncodeOfDecodeIsTheWord
  intro c i h
  obtain ⟨_, _, _, _, _, hw⟩ := decode_ok h
  exact ⟨encode_of_decode h, hw⟩

end Sys2Proof.Machine
